-- ==== Sys2Proof/Word.lean ====
section
/-!
DEFINITION. The word and byte of the block: every register is 32 bits wide (00_scope.md R8) and the target
space is addressed in bytes by 32-bit addresses (00_scope.md R9, 20_memory.md R63).
-/

namespace Sys2Proof

/-- A register value, an address or a window: an unsigned 32-bit value (00_scope.md R8, R9). -/
abbrev Word := BitVec 32

/-- One byte of the target space (20_memory.md R63). -/
abbrev Byte := BitVec 8

end Sys2Proof
end

