-- ==== Sys2Proof/Machine/Flags.lean ====
section
/-!
DEFINITION. The fields of the channel control register CCR (10_state.md R31 to R44, 30_encoding.md R88).

The block has no condition codes and no flag that hardware sets (10_state.md R46), so these fields are all the
flags there are. Their bit positions are the spec's own choice (92_eei_decisions.md D3; log entry 12): every
rule that reads CCR names a field, and so does every meaning of this model (00_scope.md R11).
-/

namespace Sys2Proof.Machine

/-- EN: the channel is enabled (R32). -/
def ccrEn (ccr : Word) : Bool := ccr.getLsbD 0

/-- TCIE: stored and read back, read by no rule (R33). -/
def ccrTcie (ccr : Word) : Bool := ccr.getLsbD 1

/-- HTIE: stored and read back, read by no rule (R34). -/
def ccrHtie (ccr : Word) : Bool := ccr.getLsbD 2

/-- TEIE: stored and read back, read by no rule (R35). -/
def ccrTeie (ccr : Word) : Bool := ccr.getLsbD 3

/-- DIR: false is peripheral to memory, true is memory to peripheral (R36; the polarity is the spec's choice D6). -/
def ccrDir (ccr : Word) : Bool := ccr.getLsbD 4

/-- CIRC: circular mode (R37). -/
def ccrCirc (ccr : Word) : Bool := ccr.getLsbD 5

/-- PINC: each transfer adds 1 to CPAR (R38). -/
def ccrPinc (ccr : Word) : Bool := ccr.getLsbD 6

/-- MINC: each transfer adds 1 to CMAR (R39). -/
def ccrMinc (ccr : Word) : Bool := ccr.getLsbD 7

/-- PSIZE: the peripheral element size code, bits 9:8 (R40). -/
def ccrPsize (ccr : Word) : BitVec 2 := ccr.extractLsb' 8 2

/-- MSIZE: the memory element size code, bits 11:10 (R41). -/
def ccrMsize (ccr : Word) : BitVec 2 := ccr.extractLsb' 10 2

/-- PL: the priority level, bits 13:12, stored and read back, read by no rule (R42). -/
def ccrPl (ccr : Word) : BitVec 2 := ccr.extractLsb' 12 2

/-- MEM2MEM: stored and read back, read by no rule (R43). -/
def ccrMem2mem (ccr : Word) : Bool := ccr.getLsbD 14

end Sys2Proof.Machine
end

