-- ==== Sys2Proof/Config.lean ====
section
/-!
DEFINITION. What the composer of the system fixes, and the one family of free values.

The block's parameters are carried as DATA of the state wherever that is possible, so that a statement about
every state is a statement about every choice: MAX_CHANNELS is the length of the channel list (00_scope.md R6),
the accessor is a field (R13), SELF_WINDOW is part of the accessor (20_memory.md R72). Here stand the types of
that data, the one number State.reset takes, and the free values of a target that is not plain memory.
-/

namespace Sys2Proof

/-- A run of target addresses: `size` bytes from `base` up. -/
structure Region where
  base : Nat
  size : Nat
deriving DecidableEq, Repr

/-- The Address Space Accessor as plain data: how the designated view of the shared target space routes an
address (00_scope.md R2, R13). An address in no region is plain byte-addressed memory (20_memory.md R64).
What the bytes of plain memory are is no part of the binding: the target space is one shared space
(20_memory.md R63) and outlives it. DESIGN CHOICE (log entry 5). -/
structure Accessor where
  /-- Addresses that are not plain memory: a device register, an unmapped or a failing address. What a read
  there returns and what a write does are the accessor's (00_scope.md R13, 20_memory.md R64, R79). -/
  nonMemory : List Region
  /-- SELF_WINDOW: the target addresses that route to this block's own registers (20_memory.md R72). -/
  selfWindow : List Region
deriving DecidableEq, Repr

/-- The value MAX_CHANNELS has in the examples and test vectors (00_scope.md R6). Only `State.reset` and
`decodeTableWord` use it: every meaning reads the parameter off the state it runs on.
DESIGN CHOICE (log entry 1). -/
def Config.maxChannels : Nat := 7

/-- The accessor `State.reset` is bound to: the plain-memory reference everywhere, SELF_WINDOW empty, as the
conventions of 95_test_vectors.md have it. DESIGN CHOICE (log entry 3). -/
def Config.plainAccessor : Accessor := { nonMemory := [], selfWindow := [] }

/-- FREE VALUE. The n-th word that a target which is not plain memory supplies: any 32-bit value
(00_scope.md R13, 93_implementation_defined.md section 1, treatment `any value`). It has no body: no proof
can see a value of it (log entry 6). -/
opaque Config.nonMemoryWord : Nat → Word

end Sys2Proof
end

