-- ==== Sys2Proof/Syntax.lean ====
section
/-!
DEFINITION. The operations of the block as syntax: one constructor per row of spec/opcode_table.json.

The block has no instruction words (30_encoding.md, opening; 10_state.md R22). Its "instructions" are the
operations its interfaces accept (00_scope.md R1, 30_encoding.md R80), after the offset of an MMIO access is
decoded to the register it names (R82).
-/

namespace Sys2Proof

/-- One operation of the block, decoded. `c` is a channel index, `v` a value to be stored. The two rows for
inactive and the two for unknown offsets keep the offset, which is the whole of their operands. -/
inductive Instr where
  /-- RD ISR (40_register_file.md R103) -/
  | rdIsr
  /-- WR ISR (R102) -/
  | wrIsr (v : Word)
  /-- RD IFCR (R105) -/
  | rdIfcr
  /-- WR IFCR (R104) -/
  | wrIfcr (v : Word)
  /-- RD CCR[c] (R107) -/
  | rdCcr (c : Nat)
  /-- WR CCR[c] (R106) -/
  | wrCcr (c : Nat) (v : Word)
  /-- RD CNDTR[c] (R109) -/
  | rdCndtr (c : Nat)
  /-- WR CNDTR[c] (R108) -/
  | wrCndtr (c : Nat) (v : Word)
  /-- RD CPAR[c] (R111) -/
  | rdCpar (c : Nat)
  /-- WR CPAR[c] (R110) -/
  | wrCpar (c : Nat) (v : Word)
  /-- RD CMAR[c] (R113) -/
  | rdCmar (c : Nat)
  /-- WR CMAR[c] (R112) -/
  | wrCmar (c : Nat) (v : Word)
  /-- RD inactive: a read whose offset has an inactive index (R115) -/
  | rdInactive (offset : Word)
  /-- WR inactive (R114) -/
  | wrInactive (offset v : Word)
  /-- RD unknown: a read whose offset names no register (R117) -/
  | rdUnknown (offset : Word)
  /-- WR unknown (R116) -/
  | wrUnknown (offset v : Word)
  /-- REQ: one event on a trigger input, with the index it carries and a level (41_request_router.md R131) -/
  | req (channel level : Int)
  /-- RST (70_reset_and_hazards.md R220) -/
  | rst
  /-- CFG: construct with a channel count and an accessor, or none (43_lifecycle.md R170) -/
  | cfg (channelCount : Nat) (accessor : Option Accessor)
  /-- SNAP (R172) -/
  | snap
  /-- LOAD: restore a record (R173) -/
  | load (record : List Word)
deriving DecidableEq, Repr

end Sys2Proof
end

