-- ==== Sys2Proof/WellFormed.lean ====
section
/-!
DEFINITION. Which terms of `Instr` stand for an operation at the block's interfaces, written from the column
"encoding" of spec/opcode_table.json and from 30_encoding.md R81 to R86, not from the decoder.

The check depends on one number, the block's channel_count: nothing else changes how an operation decodes
(30_encoding.md R92).
-/

namespace Sys2Proof

/-- Channel `c` is active and sub-offset `k` of its 20-byte block is a u32 offset (30_encoding.md R81, R83). -/
def channelRegisterWellFormed (channelCount c k : Nat) : Bool :=
  decide (c < channelCount) && decide (8 + 20 * c + k < 2 ^ 32)

/-- The offset lies in the block of an inactive index (row RD_inactive, WR_inactive). -/
def offsetIsInactive (channelCount : Nat) (offset : Word) : Bool :=
  decide (8 ≤ offset.toNat) && decide (channelCount ≤ (offset.toNat - 8) / 20)

/-- The offset names no register and belongs to no inactive index (row RD_unknown, WR_unknown). -/
def offsetIsUnknown (channelCount : Nat) (offset : Word) : Bool :=
  [1, 2, 3, 5, 6, 7].contains offset.toNat
  || (decide (8 ≤ offset.toNat) && decide ((offset.toNat - 8) / 20 < channelCount)
      && !([0, 4, 8, 12].contains ((offset.toNat - 8) % 20)))

/-- The operation is one the interfaces can carry to a block with this channel_count. The operands of the
other formats have no ill-formed value: any channel index and level, any count, any record of u32 values
(30_encoding.md R80); a bad count or record has an outcome of its own (43_lifecycle.md R170, R173). -/
def Instr.wellFormed (channelCount : Nat) : Instr → Bool
  | .rdIsr | .rdIfcr | .wrIsr _ | .wrIfcr _ => true
  | .rdCcr c | .wrCcr c _ => channelRegisterWellFormed channelCount c 0
  | .rdCndtr c | .wrCndtr c _ => channelRegisterWellFormed channelCount c 4
  | .rdCpar c | .wrCpar c _ => channelRegisterWellFormed channelCount c 8
  | .rdCmar c | .wrCmar c _ => channelRegisterWellFormed channelCount c 12
  | .rdInactive offset | .wrInactive offset _ => offsetIsInactive channelCount offset
  | .rdUnknown offset | .wrUnknown offset _ => offsetIsUnknown channelCount offset
  | .req _ _ | .rst | .cfg _ _ | .snap | .load _ => true

end Sys2Proof
end

