-- ==== Sys2Proof/Decode.lean ====
section
/-!
DEFINITION. The encoded form of an operation, its decoder and its encoder (30_encoding.md).

The block has no instruction words. What a decoder must decode is the kind of each operation at the block's
interfaces and the register-window offset of an MMIO access (30_encoding.md, opening; R80, R82). So the encoded
form is the operation with its operand values, which is also what 30_encoding.md R93 calls the encoding of a
script line, and the one bit pattern there is, is the 32-bit offset.
-/

namespace Sys2Proof

/-- An operation as the interfaces carry it: the formats of 30_encoding.md R80, with their operands.
Offsets and values are u32 (R81), the size is any natural (90_conflicts.md C7), a request carries a signed
index and a level (R90), a record is a list of u32 values (43_lifecycle.md R172). -/
inductive Operation where
  | mmioRead (offset : Word) (size : Nat)
  | mmioWrite (offset : Word) (size : Nat) (value : Word)
  | request (channel level : Int)
  | reset
  | construct (channelCount : Nat) (accessor : Option Accessor)
  | snapshot
  | restore (record : List Word)
deriving DecidableEq, Repr

/-- The four registers of a channel's 20-byte block that have an address (30_encoding.md R82). -/
inductive ChannelRegister where
  | ccr
  | cndtr
  | cpar
  | cmar
deriving DecidableEq, Repr

/-- What a register-window offset names: the `Target` of 30_encoding.md R82. -/
inductive Target where
  | isr
  | ifcr
  | channel (c : Nat) (r : ChannelRegister)
  | inactive (c : Nat)
  | unknown
deriving DecidableEq, Repr

/-- Why an operation is rejected before it reaches the block. -/
inductive DecodeError where
  /-- An MMIO access of a size other than 4 (20_memory.md R61, 30_encoding.md R81). -/
  | mmioSize
deriving DecidableEq, Repr

/-- The register at a sub-offset of an active channel's block; every other sub-offset is unknown
(30_encoding.md R82, R85). -/
def registerAt (sub : Nat) : Option ChannelRegister :=
  if sub = 0 then some .ccr
  else if sub = 4 then some .cndtr
  else if sub = 8 then some .cpar
  else if sub = 12 then some .cmar
  else none

/-- `decode(offset)` of 30_encoding.md R82: exact natural-number arithmetic on the offset (R83), the index
tested before the sub-offset is looked at (R84). -/
def decodeOffset (channelCount : Nat) (offset : Word) : Target :=
  if offset.toNat = 0 then .isr
  else if offset.toNat = 4 then .ifcr
  else if offset.toNat < 8 then .unknown
  else if channelCount ≤ (offset.toNat - 8) / 20 then .inactive ((offset.toNat - 8) / 20)
  else match registerAt ((offset.toNat - 8) % 20) with
    | some r => .channel ((offset.toNat - 8) / 20) r
    | none => .unknown

/-- The read row of the opcode table for a target (40_register_file.md R100). -/
def readOf (offset : Word) : Target → Instr
  | .isr => .rdIsr
  | .ifcr => .rdIfcr
  | .channel c .ccr => .rdCcr c
  | .channel c .cndtr => .rdCndtr c
  | .channel c .cpar => .rdCpar c
  | .channel c .cmar => .rdCmar c
  | .inactive _ => .rdInactive offset
  | .unknown => .rdUnknown offset

/-- The write row of the opcode table for a target (40_register_file.md R101). -/
def writeOf (offset v : Word) : Target → Instr
  | .isr => .wrIsr v
  | .ifcr => .wrIfcr v
  | .channel c .ccr => .wrCcr c v
  | .channel c .cndtr => .wrCndtr c v
  | .channel c .cpar => .wrCpar c v
  | .channel c .cmar => .wrCmar c v
  | .inactive _ => .wrInactive offset v
  | .unknown => .wrUnknown offset v

/-- Decoding, total on every operation. The one rejection is an MMIO access of a size other than 4
(30_encoding.md R81, R91). Only channel_count matters beside the operation itself (R92). -/
def decode (channelCount : Nat) : Operation → Except DecodeError Instr
  | .mmioRead offset size =>
    if size = 4 then .ok (readOf offset (decodeOffset channelCount offset)) else .error .mmioSize
  | .mmioWrite offset size v =>
    if size = 4 then .ok (writeOf offset v (decodeOffset channelCount offset)) else .error .mmioSize
  | .request channel level => .ok (.req channel level)
  | .reset => .ok .rst
  | .construct n accessor => .ok (.cfg n accessor)
  | .snapshot => .ok .snap
  | .restore record => .ok (.load record)

/-- The offset of sub-offset `k` in channel `c`'s block: `0x08 + 20·c + k` (30_encoding.md R83, R87). -/
def channelOffset (c k : Nat) : Word := BitVec.ofNat 32 (8 + 20 * c + k)

/-- The operation that stands for an instruction, written from the expansions of 30_encoding.md R93 and the
register map of R87. -/
def encode : Instr → Operation
  | .rdIsr => .mmioRead 0x00#32 4
  | .wrIsr v => .mmioWrite 0x00#32 4 v
  | .rdIfcr => .mmioRead 0x04#32 4
  | .wrIfcr v => .mmioWrite 0x04#32 4 v
  | .rdCcr c => .mmioRead (channelOffset c 0) 4
  | .wrCcr c v => .mmioWrite (channelOffset c 0) 4 v
  | .rdCndtr c => .mmioRead (channelOffset c 4) 4
  | .wrCndtr c v => .mmioWrite (channelOffset c 4) 4 v
  | .rdCpar c => .mmioRead (channelOffset c 8) 4
  | .wrCpar c v => .mmioWrite (channelOffset c 8) 4 v
  | .rdCmar c => .mmioRead (channelOffset c 12) 4
  | .wrCmar c v => .mmioWrite (channelOffset c 12) 4 v
  | .rdInactive offset => .mmioRead offset 4
  | .wrInactive offset v => .mmioWrite offset 4 v
  | .rdUnknown offset => .mmioRead offset 4
  | .wrUnknown offset v => .mmioWrite offset 4 v
  | .req channel level => .request channel level
  | .rst => .reset
  | .cfg n accessor => .construct n accessor
  | .snap => .snapshot
  | .load record => .restore record

/-- The operation a word of spec/opcode_table.json stands for: a table word is the 32-bit offset operand
(rows RD_ISR, WR_ISR, RD_IFCR, WR_IFCR) and says nothing of the direction of the access, which is the
column "format". A word alone is read as an mmio_read of size 4; bits above the word's are zero, and a word
of more than 32 bits is no offset. DESIGN CHOICE (log entry 9). -/
def tableOperation (nbits w : Nat) : Option Operation :=
  if w % 2 ^ nbits < 2 ^ 32 then some (.mmioRead (BitVec.ofNat 32 (w % 2 ^ nbits)) 4) else none

/-- What the decoder reads from a word of the opcode table, for a block with all of its
`Config.maxChannels` slots active, which is what `State.reset` holds (log entries 2, 9). -/
def decodeTableWord (nbits w : Nat) : Option Instr :=
  match tableOperation nbits w with
  | some o => (decode Config.maxChannels o).toOption
  | none => none

end Sys2Proof
end

