-- ==== Sys2Proof/Machine/State.lean ====
section
/-!
DEFINITION. The state of the machine as plain data, the reasons a step can stop, and the state after reset
(10_state.md; 60_exceptions.md R201, R202).
-/

namespace Sys2Proof.Machine

/-- One channel slot: the five 32-bit fields of 10_state.md R23. -/
structure Channel where
  /-- control word (R24) -/
  ccr : Word
  /-- remaining element count (R25) -/
  cndtr : Word
  /-- the count as last written; no register shows it (R26) -/
  reloadCndtr : Word
  /-- peripheral-side address (R27) -/
  cpar : Word
  /-- memory-side address (R28) -/
  cmar : Word
deriving DecidableEq, Repr

/-- A slot after reset: all five fields 0 (10_state.md R52). -/
def Channel.zero : Channel := { ccr := 0, cndtr := 0, reloadCndtr := 0, cpar := 0, cmar := 0 }

/-- The plain-memory bytes of the target space: (address, byte) pairs, addresses strictly rising, none equal to
what an unlisted address reads as. -/
abbrev Memory := List Host.Cell

/-- One access to the target space (20_memory.md R63): the address and the 32-bit value read or written. -/
inductive Access where
  | read (a v : Word)
  | write (a v : Word)
deriving DecidableEq, Repr

/-- What an operation gives back to the host (30_encoding.md R80, column "result"). -/
inductive Result where
  | none
  | word (v : Word)
  | record (r : List Word)
deriving DecidableEq, Repr

/-- One event at the machine's boundary. The surrounding system serializes all of them (20_memory.md R68, R73). -/
inductive Event where
  /-- an operation of the block (30_encoding.md R80) -/
  | operation (o : Operation)
  /-- another user of the shared target space stores one byte (20_memory.md R68, R73). It is no operation of
  the block and runs no instruction (log entry 8). -/
  | targetStore (a : Word) (b : Byte)
deriving DecidableEq, Repr

/-- The machine: the state of the block (10_state.md R20), the plain memory behind the accessor
(70_reset_and_hazards.md R234), the events still to come, and what the last operation showed outside. -/
structure State where
  /-- the block has been constructed: false before the construction that a run starts with, true for the rest of
  the block's lifetime (43_lifecycle.md R170, R171; 70_reset_and_hazards.md R223, R234; log entry 10) -/
  constructed : Bool
  /-- global interrupt-status register (R29) -/
  isr : Word
  /-- global interrupt-flag-clear register (R30) -/
  ifcr : Word
  /-- the channel array; its length is MAX_CHANNELS (R23, 00_scope.md R6) -/
  ch : List Channel
  /-- number of active channels (00_scope.md R7) -/
  channelCount : Nat
  /-- the bound accessor (00_scope.md R13) -/
  accessor : Accessor
  /-- the contents of the target space where it is plain memory (20_memory.md R64) -/
  mem : Memory
  /-- the model's own: how many free values non-memory targets have supplied (log entry 7) -/
  draws : Nat
  /-- the model's own: the events to come, the next one first (log entry 8) -/
  input : List Event
  /-- the model's own: what the last operation gave back (log entry 11) -/
  result : Result
  /-- the model's own: the target-space accesses of the last operation, in order (log entry 11) -/
  accesses : List Access
deriving DecidableEq, Repr

/-- Why the machine stops for good. Both are the fatal construction error of 43_lifecycle.md R170: no block
exists after it, so no operation has a step. Safe: a run that reaches one has no later state. -/
inductive Fault where
  /-- Raised by CFG when no accessor is supplied (R170, 60_exceptions.md R201). Safe. -/
  | noAccessor
  /-- Raised by CFG when channel_count is outside 1..MAX_CHANNELS (R170, R201). Safe. -/
  | badChannelCount
deriving DecidableEq, Repr

/-- The operations the spec gives no meaning: the closed list of 60_exceptions.md R202, and the two that break the
host's duty to construct once and before any other operation (43_lifecycle.md R176). All are safe: a run
that reaches one has no later state, so nothing can be proved of it that the hardware could belie. -/
inductive Refusal where
  /-- Raised by `exec` for an instruction without a meaning. No arm raises it. Safe. -/
  | notModelled (mnemonic : String)
  /-- Raised by `step` for an MMIO access of a size other than 4 (20_memory.md R61). Safe. -/
  | mmioSize
  /-- Raised by REQ when the request passes step 1 and PSIZE or MSIZE is 0b11 (42_transfer_engine.md R143). Safe. -/
  | reservedSize
  /-- Raised by REQ when a window touches the block's own registers (20_memory.md R72). Safe. -/
  | selfAccess
  /-- Raised by LOAD for a record of the wrong length (43_lifecycle.md R173). Safe. -/
  | restoreShape
  /-- Raised by LOAD for a record with another channel_count (R173). Safe. -/
  | restoreMismatch
  /-- Raised by CFG when the block has been constructed: it is constructed once (R171, R176; log entry 10). Safe. -/
  | alreadyConstructed
  /-- Raised by `step` for any other operation before the construction, when no rule of the block holds yet
  (70_reset_and_hazards.md R223, 43_lifecycle.md R176; log entry 10). Safe. -/
  | notConstructed
deriving DecidableEq, Repr

/-- The machine right after reset: the registers and slots as 10_state.md R52 gives them. Reset happens at
construction and on request (R52), so after it the block is constructed. What a reset does not
set is named in the log: 7 slots and 7 active channels (log entries 1, 2), an accessor that shows plain memory
(3), memory with nothing listed (4), and nothing to come and nothing shown (7, 8, 11). -/
def State.reset : State :=
  { constructed := true, isr := 0, ifcr := 0, ch := List.replicate Config.maxChannels Channel.zero,
    channelCount := Config.maxChannels, accessor := Config.plainAccessor,
    mem := [], draws := 0, input := [], result := .none, accesses := [] }

/-- The machine before its construction, where a run starts (70_reset_and_hazards.md R234). No rule of the block
holds yet (R223): its fields hold no value a rule could read, and channel_count is out of its range (log entry 10). -/
def State.unconstructed : State := { State.reset with constructed := false, channelCount := 0 }

end Sys2Proof.Machine
end

