-- ==== Sys2Proof/Machine/Operands.lean ====
section
/-!
DEFINITION. The operand forms of a transfer: element sizes, effective addresses, the two sides, the narrow merge,
and what a transfer does to its channel's registers (42_transfer_engine.md R142 to R152).
-/

namespace Sys2Proof.Machine

/-- The three element sizes (30_encoding.md R89). -/
inductive ElemSize where
  | byte
  | halfword
  | word
deriving DecidableEq, Repr

/-- `size(code)` of 30_encoding.md R89; `none` is RESERVED. The code values are the spec's choice D4 (log entry 12). -/
def sizeOfCode (code : BitVec 2) : Option ElemSize :=
  if code = 0b00#2 then some .byte
  else if code = 0b01#2 then some .halfword
  else if code = 0b10#2 then some .word
  else none

/-- The address mask of a size (42_transfer_engine.md R140, R144). -/
def amask : ElemSize → Word
  | .byte => 0xFFFFFFFF#32
  | .halfword => 0xFFFFFFFE#32
  | .word => 0xFFFFFFFC#32

/-- The data mask of a size: the low 8, 16 or 32 bits of a window (R140, R145). -/
def dmask : ElemSize → Word
  | .byte => 0x000000FF#32
  | .halfword => 0x0000FFFF#32
  | .word => 0xFFFFFFFF#32

/-- Step 3: the effective address of a side (R144). -/
def effectiveAddress (a : Word) (size : ElemSize) : Word := a &&& amask size

/-- Step 6: the narrow merge. The bits cleared follow the destination size, the bits ORed in follow the source
size (R148, 90_conflicts.md C2). -/
def merge (d : Word) (dsize : ElemSize) (s : Word) (ssize : ElemSize) : Word :=
  (d &&& ~~~(dmask dsize)) ||| (s &&& dmask ssize)

/-- What one request moves: the two effective addresses and the two sizes (R140, steps 2 and 3). -/
structure Move where
  se : Word
  ssize : ElemSize
  de : Word
  dsize : ElemSize
deriving DecidableEq, Repr

/-- Steps 2 and 3: DIR chooses the sides, each side keeps its own size (R142), each effective address is masked
by its own side's size (R144). -/
def moveOf (x : Channel) (psize msize : ElemSize) : Move :=
  if ccrDir x.ccr then
    { se := effectiveAddress x.cmar msize, ssize := msize, de := effectiveAddress x.cpar psize, dsize := psize }
  else
    { se := effectiveAddress x.cpar psize, ssize := psize, de := effectiveAddress x.cmar msize, dsize := msize }

/-- Step 8: an address register after a transfer, incremented by exactly 1 modulo 2^32 when its flag is set,
whatever the element size (R150, R151; the wrap is the spec's choice D8, log entry 13). -/
def steppedAddress (increment : Bool) (a : Word) : Word := if increment then a + 1 else a

/-- Step 9: the count after a transfer, reloaded in circular mode when it reaches 0 (R152). -/
def steppedCount (x : Channel) : Word :=
  if x.cndtr - 1 = 0 ∧ ccrCirc x.ccr = true then x.reloadCndtr else x.cndtr - 1

/-- Steps 8 and 9 on the channel's registers. -/
def afterElement (x : Channel) : Channel :=
  { x with
    cmar := steppedAddress (ccrMinc x.ccr) x.cmar
    cpar := steppedAddress (ccrPinc x.ccr) x.cpar
    cndtr := steppedCount x }

end Sys2Proof.Machine
end

