-- ==== Sys2Proof/Machine/Ops.lean ====
section
/-!
DEFINITION. The named operations over memory, the accessor and the registers.

The block raises no exception, takes no trap and returns from none (60_exceptions.md R200, R206, R207), so there
is no exception entry here: every error-like condition is a no-op or a value, and the two ways a step can stop
are the construction fault and the refusals of R201 and R202.
-/

namespace Sys2Proof.Machine

/-- What a byte of plain memory reads as when nothing has written it. DESIGN CHOICE (log entry 4). -/
def Memory.unlisted : Byte := 0

/-- Read one byte of plain memory. -/
def Memory.read : Memory → Nat → Byte
  | [], _ => Memory.unlisted
  | (k, x) :: m, a => if a = k then x else Memory.read m a

/-- Write one byte of plain memory, keeping the canonical form: a byte equal to what an unlisted address reads
as is not listed. -/
def Memory.write : Memory → Nat → Byte → Memory
  | [], a, b => if b = Memory.unlisted then [] else [(a, b)]
  | (k, x) :: m, a, b =>
    if a < k then if b = Memory.unlisted then (k, x) :: m else (a, b) :: (k, x) :: m
    else if a = k then if b = Memory.unlisted then m else (a, b) :: m
    else (k, x) :: Memory.write m a b

/-- The canonical form: addresses strictly rising and inside the 32-bit space (20_memory.md R63), no entry equal
to what an unlisted address reads as. -/
def Memory.wf : Memory → Bool
  | [] => true
  | (k, x) :: m =>
    decide (k < 2 ^ 32) && !(x == Memory.unlisted) && m.all (fun e => decide (k < e.1)) && Memory.wf m

/-- Byte `i` of a window at `a`, modulo 2^32 (20_memory.md R64; the wrap is the spec's choice D9, log entry 13). -/
def windowAddress (a : Word) (i : Nat) : Word := a + BitVec.ofNat 32 i

/-- The byte of a 32-bit value that lies at window offset `i`: little-endian (20_memory.md R64). -/
def laneOf (v : Word) (i : Nat) : Byte := v.extractLsb' (8 * i) 8

/-- `MemRead(a, 4)` for plain memory (20_memory.md R64). -/
def memRead (m : Memory) (a : Word) : Word :=
  (m.read (windowAddress a 0).toNat).setWidth 32
  ||| (m.read (windowAddress a 1).toNat).setWidth 32 <<< 8
  ||| (m.read (windowAddress a 2).toNat).setWidth 32 <<< 16
  ||| (m.read (windowAddress a 3).toNat).setWidth 32 <<< 24

/-- The address lies in the region. -/
def regionHolds (a : Word) (r : Region) : Bool :=
  decide (r.base ≤ a.toNat) && decide (a.toNat < r.base + r.size)

/-- The address lies in one of the regions. -/
def inRegions (rs : List Region) (a : Word) : Bool := rs.any (regionHolds a)

/-- Some byte of the window at `a` lies in one of the regions: `touches_self(a)` of 42_transfer_engine.md R140
when the regions are SELF_WINDOW. -/
def windowTouches (rs : List Region) (a : Word) : Bool :=
  inRegions rs (windowAddress a 0) || inRegions rs (windowAddress a 1)
  || inRegions rs (windowAddress a 2) || inRegions rs (windowAddress a 3)

/-- Store one lane of a window, unless its address is not plain memory. -/
def storeLane (nonMemory : List Region) (a v : Word) (m : Memory) (i : Nat) : Memory :=
  if inRegions nonMemory (windowAddress a i) then m
  else m.write (windowAddress a i).toNat (laneOf v i)

/-- `MemWrite(a, 4, v)` on the plain-memory bytes of a window (20_memory.md R64). -/
def memWrite (nonMemory : List Region) (m : Memory) (a v : Word) : Memory :=
  storeLane nonMemory a v
    (storeLane nonMemory a v (storeLane nonMemory a v (storeLane nonMemory a v m 0) 1) 2) 3

/-- What `MemRead(a, 4)` through the accessor gives: the window of plain memory, or, where the window touches a
target that is not plain memory, a free value (00_scope.md R13, 20_memory.md R79; log entry 6). -/
def busValue (s : State) (a : Word) : Word :=
  if windowTouches s.accessor.nonMemory a then Config.nonMemoryWord s.draws else memRead s.mem a

/-- The state after an access at `a`: an access to a target that is not plain memory uses up one free value. -/
def afterAccess (s : State) (a : Word) : State :=
  if windowTouches s.accessor.nonMemory a then { s with draws := s.draws + 1 } else s

/-- `MemWrite(a, 4, v)` through the accessor: plain memory stores the value; where the window touches a target
that is not plain memory, what the write does is the accessor's, and the plain bytes of that window are left
with free values (20_memory.md R64, R69, R79; log entry 6). -/
def busWrite (s : State) (a v : Word) : State :=
  { afterAccess s a with
    mem := memWrite s.accessor.nonMemory s.mem a
      (if windowTouches s.accessor.nonMemory a then Config.nonMemoryWord s.draws else v) }

/-- Steps 4 to 7 of a transfer: exactly three accesses, the source read, the destination read and the write of
the merged window, in this order, whatever the accessor reports (42_transfer_engine.md R146 to R149, R157;
20_memory.md R67, R79). -/
def moveElement (mv : Move) (s : State) : State :=
  let x := busValue s mv.se
  let s₁ := afterAccess s mv.se
  let d := busValue s₁ mv.de
  let s₂ := afterAccess s₁ mv.de
  let m := merge d mv.dsize x mv.ssize
  { busWrite s₂ mv.de m with accesses := [.read mv.se x, .read mv.de d, .write mv.de m] }

/-- The slot of channel `c`. A number past the array has no slot: zeros are read and nothing is stored. -/
def channelAt (s : State) (c : Nat) : Channel := s.ch.getD c Channel.zero

/-- Replace the slot of channel `c`. -/
def setChannel (s : State) (c : Nat) (x : Channel) : State := { s with ch := s.ch.set c x }

/-- The end of an operation: what it gives back, and that it made no access to the target space. -/
def answer (s : State) (r : Result) : State := { s with result := r, accesses := [] }

/-- The end of a register read that returns `v` (40_register_file.md R100). -/
def readReturns (s : State) (v : Word) : Host.Outcome State Fault Refusal := .next (answer s (.word v))

/-- The end of an operation that returns nothing and touches no target (R101, `noop` of 00_scope.md section 4). -/
def done (s : State) : Host.Outcome State Fault Refusal := .next (answer s .none)

/-- Read a register of channel `c`: 0 for an index that is not active (40_register_file.md R115). -/
def readChannel (s : State) (c : Nat) (field : Channel → Word) : Host.Outcome State Fault Refusal :=
  readReturns s (if c < s.channelCount then field (channelAt s c) else 0)

/-- Write a register of channel `c`: nothing for an index that is not active (R114). No condition on EN, the
count or anything else (R119). -/
def writeChannel (s : State) (c : Nat) (update : Channel → Channel) : Host.Outcome State Fault Refusal :=
  done (if c < s.channelCount then setChannel s c (update (channelAt s c)) else s)

/-- Reset: every register and every slot, inactive ones included, to 0; channel_count, the accessor and the
target space stay (70_reset_and_hazards.md R220, R221). -/
def clearRegisters (s : State) : State :=
  { s with isr := 0, ifcr := 0, ch := s.ch.map (fun _ => Channel.zero) }

/-- The five fields of a slot in snapshot order (43_lifecycle.md R172). -/
def channelRecord (x : Channel) : List Word := [x.ccr, x.cndtr, x.reloadCndtr, x.cpar, x.cmar]

/-- channel_count as a field of the record, a u32 (43_lifecycle.md R172, 92_eei_decisions.md D19; log entry 16). -/
def countWord (s : State) : Word := BitVec.ofNat 32 s.channelCount

/-- The snapshot record (43_lifecycle.md R172). -/
def snapshotRecord (s : State) : List Word :=
  s.isr :: s.ifcr :: countWord s :: s.ch.flatMap channelRecord

/-- Field `i` of a record. -/
def recordField (r : List Word) (i : Nat) : Word := r.getD i 0

/-- The slot a record holds for channel `c` (43_lifecycle.md R173). -/
def channelOfRecord (r : List Word) (c : Nat) : Channel :=
  { ccr := recordField r (3 + 5 * c + 0)
    cndtr := recordField r (3 + 5 * c + 1)
    reloadCndtr := recordField r (3 + 5 * c + 2)
    cpar := recordField r (3 + 5 * c + 3)
    cmar := recordField r (3 + 5 * c + 4) }

/-- Load a record of the right shape: every field but channel_count and the accessor, verbatim (R173). -/
def loadRecord (s : State) (r : List Word) : State :=
  { s with isr := recordField r 0, ifcr := recordField r 1,
           ch := (List.range s.ch.length).map (channelOfRecord r) }

/-- The next event and the state without it; `none` when nothing is to come. -/
def takeEvent (s : State) : Option (Event × State) :=
  match s.input with
  | [] => none
  | e :: rest => some (e, { s with input := rest })

/-- Another user of the target space stores a byte (20_memory.md R68, R73; log entry 8). DESIGN CHOICE (log entry 22):
the byte goes into `mem` whatever the address is under the block's accessor, though an address that is not plain
memory or lies in SELF_WINDOW is a target of which the spec leaves open what such a store does. -/
def targetStore (s : State) (a : Word) (b : Byte) : State := { s with mem := s.mem.write a.toNat b }

/-- The refusal that a rejected encoding ends in (30_encoding.md R91). -/
def refusalOf : DecodeError → Refusal
  | .mmioSize => .mmioSize

end Sys2Proof.Machine
end

