-- ==== Sys2Proof/Machine/Lifecycle.lean ====
section
/-!
DEFINITION. Reset, construction, snapshot and restore, and the test that the block exists (70_reset_and_hazards.md R220, 43_lifecycle.md R170 to R174).
-/

namespace Sys2Proof.Machine

/-- RST (70_reset_and_hazards.md R220, R221). -/
def execRst (s : State) : Host.Outcome State Fault Refusal := done (clearRegisters s)

/-- CFG: on a machine that holds no block yet, the accessor test, then the range of the count, then the block is made
and reset (43_lifecycle.md R170). A block is constructed once: nothing changes its channel_count or accessor
afterwards, and no fatal error can occur (R171, 60_exceptions.md R201), so a second CFG is refused (log entry 10). -/
def execCfg (n : Nat) (accessor : Option Accessor) (s : State) : Host.Outcome State Fault Refusal :=
  if s.constructed then .refused .alreadyConstructed
  else match accessor with
    | none => .fault .noAccessor
    | some a =>
      if n < 1 ∨ s.ch.length < n then .fault .badChannelCount
      else done (clearRegisters { s with constructed := true, channelCount := n, accessor := a })

/-- SNAP: the record, and nothing changes (R172). -/
def execSnap (s : State) : Host.Outcome State Fault Refusal := .next (answer s (.record (snapshotRecord s)))

/-- LOAD: the length test, then the channel_count test, then the record is loaded verbatim (R173). -/
def execLoad (record : List Word) (s : State) : Host.Outcome State Fault Refusal :=
  if record.length ≠ 3 + 5 * s.ch.length then .refused .restoreShape
  else if recordField record 2 ≠ countWord s then .refused .restoreMismatch
  else done (loadRecord s record)

/-- The operation is a construction. -/
def isConstruction : Instr → Bool
  | .cfg _ _ => true
  | _ => false

/-- The machine has a step on the operation: the block exists, or the operation is the construction that makes it
(43_lifecycle.md R170, R176; 70_reset_and_hazards.md R223). -/
def admits (s : State) (i : Instr) : Bool := s.constructed || isConstruction i

end Sys2Proof.Machine
end

