-- ==== Sys2Proof/Machine/RegisterFile.lean ====
section
/-!
DEFINITION. The Register File: MMIO reads and writes (40_register_file.md R100 to R119). No read changes a
register (20_memory.md R62), no register operation touches the target space (R67).
-/

namespace Sys2Proof.Machine

/-- RD ISR (R103). -/
def execRdIsr (s : State) : Host.Outcome State Fault Refusal := readReturns s s.isr

/-- WR ISR: all 32 bits stored, nothing else changes (R102). -/
def execWrIsr (v : Word) (s : State) : Host.Outcome State Fault Refusal := done { s with isr := v }

/-- RD IFCR: the stored value (R105). -/
def execRdIfcr (s : State) : Host.Outcome State Fault Refusal := readReturns s s.ifcr

/-- WR IFCR: stored; no bit of ISR is cleared (R104). -/
def execWrIfcr (v : Word) (s : State) : Host.Outcome State Fault Refusal := done { s with ifcr := v }

/-- RD CCR[c] (R107). -/
def execRdCcr (c : Nat) (s : State) : Host.Outcome State Fault Refusal := readChannel s c (·.ccr)

/-- WR CCR[c]: all 32 bits stored; setting EN starts nothing (R106). -/
def execWrCcr (c : Nat) (v : Word) (s : State) : Host.Outcome State Fault Refusal :=
  writeChannel s c fun x => { x with ccr := v }

/-- RD CNDTR[c] (R109). -/
def execRdCndtr (c : Nat) (s : State) : Host.Outcome State Fault Refusal := readChannel s c (·.cndtr)

/-- WR CNDTR[c]: the count and its reload snapshot (R108). -/
def execWrCndtr (c : Nat) (v : Word) (s : State) : Host.Outcome State Fault Refusal :=
  writeChannel s c fun x => { x with cndtr := v, reloadCndtr := v }

/-- RD CPAR[c] (R111). -/
def execRdCpar (c : Nat) (s : State) : Host.Outcome State Fault Refusal := readChannel s c (·.cpar)

/-- WR CPAR[c]: stored unmasked (R110). -/
def execWrCpar (c : Nat) (v : Word) (s : State) : Host.Outcome State Fault Refusal :=
  writeChannel s c fun x => { x with cpar := v }

/-- RD CMAR[c] (R113). -/
def execRdCmar (c : Nat) (s : State) : Host.Outcome State Fault Refusal := readChannel s c (·.cmar)

/-- WR CMAR[c]: stored unmasked (R112). -/
def execWrCmar (c : Nat) (v : Word) (s : State) : Host.Outcome State Fault Refusal :=
  writeChannel s c fun x => { x with cmar := v }

/-- RD inactive: 0, whatever the slot holds (R115). -/
def execRdInactive (s : State) : Host.Outcome State Fault Refusal := readReturns s 0

/-- WR inactive: no-op (R114). -/
def execWrInactive (s : State) : Host.Outcome State Fault Refusal := done s

/-- RD unknown: 0 (R117). -/
def execRdUnknown (s : State) : Host.Outcome State Fault Refusal := readReturns s 0

/-- WR unknown: no-op (R116). -/
def execWrUnknown (s : State) : Host.Outcome State Fault Refusal := done s

end Sys2Proof.Machine
end

