-- ==== Sys2Proof/Machine/TransferEngine.lean ====
section
/-!
DEFINITION. The Transfer Engine and the Request Router: one event on a trigger input, and the transfer it causes
(41_request_router.md R130 to R137, 42_transfer_engine.md R140 to R160).
-/

namespace Sys2Proof.Machine

/-- Step 1: the request is rejected when EN = 0 or the count is 0 (42_transfer_engine.md R141). -/
def rejects (x : Channel) : Bool := !(ccrEn x.ccr) || x.cndtr == 0

/-- `transfer(c)` of 42_transfer_engine.md R140, the tests in the order of 60_exceptions.md R205: rejection, then
a reserved size code, then a window in the block's own registers. CCR is read once, at the start. -/
def transfer (c : Nat) (s : State) : Host.Outcome State Fault Refusal :=
  let x := channelAt s c
  if rejects x then done s
  else match sizeOfCode (ccrPsize x.ccr), sizeOfCode (ccrMsize x.ccr) with
    | some psize, some msize =>
      let mv := moveOf x psize msize
      if windowTouches s.accessor.selfWindow mv.se || windowTouches s.accessor.selfWindow mv.de then
        .refused .selfAccess
      else
        .next { setChannel (moveElement mv s) c (afterElement x) with result := .none }
    | _, _ => .refused .reservedSize

/-- REQ: an index outside 0..channel_count-1 is ignored (41_request_router.md R132), any other runs the engine.
The level does not matter (R133). -/
def execReq (channel _level : Int) (s : State) : Host.Outcome State Fault Refusal :=
  if channel < 0 ∨ (s.channelCount : Int) ≤ channel then done s else transfer channel.toNat s

end Sys2Proof.Machine
end

