-- ==== Sys2Proof/Machine/Dispatch.lean ====
section
/-!
DEFINITION. The dispatch: one arm per operation of spec/opcode_table.json.
-/

namespace Sys2Proof.Machine

def exec (i : Instr) (s : State) : Host.Outcome State Fault Refusal :=
  match i with
  | .rdIsr => Sys2Proof.Machine.execRdIsr s
  | .wrIsr v => Sys2Proof.Machine.execWrIsr v s
  | .rdIfcr => Sys2Proof.Machine.execRdIfcr s
  | .wrIfcr v => Sys2Proof.Machine.execWrIfcr v s
  | .rdCcr c => Sys2Proof.Machine.execRdCcr c s
  | .wrCcr c v => Sys2Proof.Machine.execWrCcr c v s
  | .rdCndtr c => Sys2Proof.Machine.execRdCndtr c s
  | .wrCndtr c v => Sys2Proof.Machine.execWrCndtr c v s
  | .rdCpar c => Sys2Proof.Machine.execRdCpar c s
  | .wrCpar c v => Sys2Proof.Machine.execWrCpar c v s
  | .rdCmar c => Sys2Proof.Machine.execRdCmar c s
  | .wrCmar c v => Sys2Proof.Machine.execWrCmar c v s
  | .rdInactive _ => Sys2Proof.Machine.execRdInactive s
  | .wrInactive _ _ => Sys2Proof.Machine.execWrInactive s
  | .rdUnknown _ => Sys2Proof.Machine.execRdUnknown s
  | .wrUnknown _ _ => Sys2Proof.Machine.execWrUnknown s
  | .req channel level => Sys2Proof.Machine.execReq channel level s
  | .rst => Sys2Proof.Machine.execRst s
  | .cfg n accessor => Sys2Proof.Machine.execCfg n accessor s
  | .snap => Sys2Proof.Machine.execSnap s
  | .load record => Sys2Proof.Machine.execLoad record s

end Sys2Proof.Machine
end

