-- ==== Sys2Proof/Machine/Step.lean ====
section
/-!
DEFINITION. One step of the machine: the next event, and nothing else (00_scope.md R14, 20_memory.md R68).
-/

namespace Sys2Proof.Machine

/-- One step takes the next event. An operation is decoded with the block's channel_count and run, if the block exists
or it is the construction that makes it (43_lifecycle.md R170); another
agent's store changes the target space; with nothing to come the block is passive and nothing changes
(60_exceptions.md R213, 70_reset_and_hazards.md R234). -/
def step (s : State) : Host.Outcome State Fault Refusal :=
  match takeEvent s with
  | none => .next s
  | some (.targetStore a b, s') => .next (targetStore s' a b)
  | some (.operation o, s') =>
    match decode s'.channelCount o with
    | .ok i => if admits s' i then exec i s' else .refused .notConstructed
    | .error e => .refused (refusalOf e)

/-- The state in which the block exists and the operation a word of the opcode table stands for is the next event. A word that is no
operation changes nothing (log entry 9). -/
def State.withFetchWord (s : State) (nbits w : Nat) : State :=
  match tableOperation nbits w with
  | some o => { s with constructed := true, input := .operation o :: s.input }
  | none => s

end Sys2Proof.Machine
end

