-- ==== Sys2Proof/Safety.lean ====
section
/-!
DEFINITION. What counts as a safe run, and the words the claims use: the invariant, the table of writers of
10_state.md R47, runs of operations.
-/

namespace Sys2Proof.Machine

/-- The invariant of a block that exists: channel_count lies in 1..MAX_CHANNELS (00_scope.md R7) and memory is
in canonical form. -/
abbrev State.Inv (s : State) : Prop :=
  1 ≤ s.channelCount ∧ s.channelCount ≤ s.ch.length ∧ Memory.wf s.mem = true

/-- Every inactive slot is 0 (10_state.md R48). -/
abbrev State.InactiveZero (s : State) : Prop := ∀ x ∈ s.ch.drop s.channelCount, x = Channel.zero

/-- The fields of the block's state (10_state.md R20). -/
inductive BlockField where
  | isr
  | ifcr
  | ccr (c : Nat)
  | cndtr (c : Nat)
  | reloadCndtr (c : Nat)
  | cpar (c : Nat)
  | cmar (c : Nat)
  | channelCount
  | accessor
deriving DecidableEq, Repr

/-- The two states agree on the field (a slot that does not exist has no value to differ in). -/
def BlockField.same (f : BlockField) (s t : State) : Prop :=
  match f with
  | .isr => t.isr = s.isr
  | .ifcr => t.ifcr = s.ifcr
  | .ccr c => t.ch[c]?.map (·.ccr) = s.ch[c]?.map (·.ccr)
  | .cndtr c => t.ch[c]?.map (·.cndtr) = s.ch[c]?.map (·.cndtr)
  | .reloadCndtr c => t.ch[c]?.map (·.reloadCndtr) = s.ch[c]?.map (·.reloadCndtr)
  | .cpar c => t.ch[c]?.map (·.cpar) = s.ch[c]?.map (·.cpar)
  | .cmar c => t.ch[c]?.map (·.cmar) = s.ch[c]?.map (·.cmar)
  | .channelCount => t.channelCount = s.channelCount
  | .accessor => t.accessor = s.accessor

/-- A transfer on channel `c`: a request on its input that is not rejected in `s` (42_transfer_engine.md R141),
the CCR field `flag` being set. -/
def transferWith (flag : Word → Bool) (c : Nat) (i : Instr) (s : State) : Bool :=
  match i with
  | .req channel _ =>
    channel == (c : Int) && decide (c < s.channelCount) && !(rejects (channelAt s c)) && flag (channelAt s c).ccr
  | _ => false

/-- Reset, restore and construction write every register (10_state.md R47; construction resets, R52). -/
def writesEverything : Instr → Bool
  | .rst | .load _ | .cfg _ _ => true
  | _ => false

/-- The table of 10_state.md R47: the operation is one of those that may write the field. -/
def mayWrite (i : Instr) (s : State) : BlockField → Bool
  | .isr => writesEverything i || (match i with | .wrIsr _ => true | _ => false)
  | .ifcr => writesEverything i || (match i with | .wrIfcr _ => true | _ => false)
  | .ccr c => writesEverything i || (match i with | .wrCcr c' _ => c' == c | _ => false)
  | .cndtr c => writesEverything i || transferWith (fun _ => true) c i s
      || (match i with | .wrCndtr c' _ => c' == c | _ => false)
  | .reloadCndtr c => writesEverything i || (match i with | .wrCndtr c' _ => c' == c | _ => false)
  | .cpar c => writesEverything i || transferWith ccrPinc c i s
      || (match i with | .wrCpar c' _ => c' == c | _ => false)
  | .cmar c => writesEverything i || transferWith ccrMinc c i s
      || (match i with | .wrCmar c' _ => c' == c | _ => false)
  | .channelCount | .accessor => isConstruction i && !s.constructed

/-- The operation is a restore. -/
def isRestore : Instr → Bool
  | .load _ => true
  | _ => false

/-- The operation is a request. -/
def isRequest : Instr → Bool
  | .req _ _ => true
  | _ => false

/-- The address of an access. -/
def Access.address : Access → Word
  | .read a _ => a
  | .write a _ => a

/-- Run a sequence of operations, stopping at the first fault or refusal (70_reset_and_hazards.md R234). -/
def runAll : List Instr → State → Host.Outcome State Fault Refusal
  | [], s => .next s
  | i :: is, s =>
    match exec i s with
    | .next t => runAll is t
    | .fault f => .fault f
    | .refused r => .refused r

end Sys2Proof.Machine
end

