-- ==== Sys2Proof/Certificates/Slice0/Obligations.lean ====
section
/-!
DEFINITION. The statements for the provers. Each is about the machine, over every state and every operand that
meets its hypotheses; none is about a program. OBLIGATIONS.json holds their titles, tiers and rules.
-/

open Sys2Proof Sys2Proof.Machine

/-! ### The register file: global registers -/

/-- 40_register_file.md R103: the read is the access at offset 0x00, gives back `isr` and changes nothing the
block or memory holds; the value is the last written, restored or reset one, and no request changes it. -/
def Obligations.RdIsrReturnsLastStoredValue : Prop :=
  ∀ (s : State) (n : Nat),
    decode n (.mmioRead 0x00#32 4) = .ok .rdIsr
    ∧ exec .rdIsr s = .next { s with result := .word s.isr, accesses := [] }
    ∧ (∀ v t, exec (.wrIsr v) s = .next t →
        exec .rdIsr t = .next { t with result := .word v, accesses := [] })
    ∧ (∀ r t, exec (.load r) s = .next t →
        exec .rdIsr t = .next { t with result := .word (r.getD 0 0), accesses := [] })
    ∧ (∀ t, exec .rst s = .next t →
        exec .rdIsr t = .next { t with result := .word 0, accesses := [] })
    ∧ (∀ channel level t, exec (.req channel level) s = .next t →
        exec .rdIsr t = .next { t with result := .word s.isr, accesses := [] })

/-- 40_register_file.md R102: the write at offset 0x00 stores all 32 bits in `isr` and changes nothing else. -/
def Obligations.WrIsrStoresEveryBit : Prop :=
  ∀ (s : State) (n : Nat) (v : Word),
    decode n (.mmioWrite 0x00#32 4 v) = .ok (.wrIsr v)
    ∧ exec (.wrIsr v) s = .next { s with isr := v, result := .none, accesses := [] }

/-- 40_register_file.md R105: the read at offset 0x04 gives back the stored value. -/
def Obligations.RdIfcrReturnsStoredValue : Prop :=
  ∀ (s : State) (n : Nat),
    decode n (.mmioRead 0x04#32 4) = .ok .rdIfcr
    ∧ exec .rdIfcr s = .next { s with result := .word s.ifcr, accesses := [] }
    ∧ (∀ v t, exec (.wrIfcr v) s = .next t →
        exec .rdIfcr t = .next { t with result := .word v, accesses := [] })

/-- 40_register_file.md R104: the write at offset 0x04 stores the value and clears no bit of `isr`; of two
writes the second stands. -/
def Obligations.WrIfcrStoresAndClearsNothing : Prop :=
  ∀ (s : State) (n : Nat) (v : Word),
    decode n (.mmioWrite 0x04#32 4 v) = .ok (.wrIfcr v)
    ∧ exec (.wrIfcr v) s = .next { s with ifcr := v, result := .none, accesses := [] }
    ∧ (∀ w t, exec (.wrIfcr w) s = .next t →
        exec (.wrIfcr v) t = .next { s with ifcr := v, result := .none, accesses := [] })

/-! ### The register file: channel registers -/

/-- 40_register_file.md R107: the read at `0x08 + 20·c + 0` gives back the whole word: the last written one, the
restored one, or 0 after reset; no request changes it, so EN is not cleared when a transfer finishes. -/
def Obligations.RdCcrReturnsStoredWord : Prop :=
  ∀ (s : State) (c : Nat) (x : Channel), c < s.channelCount → s.ch[c]? = some x →
    (8 + 20 * c + 0 < 2 ^ 32 →
      decode s.channelCount (.mmioRead (BitVec.ofNat 32 (8 + 20 * c + 0)) 4) = .ok (.rdCcr c))
    ∧ exec (.rdCcr c) s = .next { s with result := .word x.ccr, accesses := [] }
    ∧ (∀ v t, exec (.wrCcr c v) s = .next t →
        exec (.rdCcr c) t = .next { t with result := .word v, accesses := [] })
    ∧ (∀ r t, exec (.load r) s = .next t →
        exec (.rdCcr c) t = .next { t with result := .word (r.getD (3 + 5 * c) 0), accesses := [] })
    ∧ (∀ t, exec .rst s = .next t →
        exec (.rdCcr c) t = .next { t with result := .word 0, accesses := [] })
    ∧ (∀ channel level t, exec (.req channel level) s = .next t →
        exec (.rdCcr c) t = .next { t with result := .word x.ccr, accesses := [] })

/-- 40_register_file.md R106: the write at `0x08 + 20·c + 0` stores all 32 bits of CCR[c], whatever EN was, starts
no transfer and changes nothing else. -/
def Obligations.WrCcrStoresEveryBitAndStartsNothing : Prop :=
  ∀ (s : State) (c : Nat) (x : Channel) (v : Word), c < s.channelCount → s.ch[c]? = some x →
    (8 + 20 * c + 0 < 2 ^ 32 →
      decode s.channelCount (.mmioWrite (BitVec.ofNat 32 (8 + 20 * c + 0)) 4 v) = .ok (.wrCcr c v))
    ∧ exec (.wrCcr c v) s =
        .next { s with ch := s.ch.set c { x with ccr := v }, result := .none, accesses := [] }

/-- 40_register_file.md R109: the read at `0x08 + 20·c + 4` gives back the remaining count, not the reload value. -/
def Obligations.RdCndtrReturnsRemainingCount : Prop :=
  ∀ (s : State) (c : Nat) (x : Channel), c < s.channelCount → s.ch[c]? = some x →
    (8 + 20 * c + 4 < 2 ^ 32 →
      decode s.channelCount (.mmioRead (BitVec.ofNat 32 (8 + 20 * c + 4)) 4) = .ok (.rdCndtr c))
    ∧ exec (.rdCndtr c) s = .next { s with result := .word x.cndtr, accesses := [] }

/-- 40_register_file.md R108: the write at `0x08 + 20·c + 4` stores all 32 bits in the count and in its reload
snapshot, whatever EN is, rewinds no address and changes nothing else; after a write of 0 every request is a no-op. -/
def Obligations.WrCndtrStoresCountAndReload : Prop :=
  ∀ (s : State) (c : Nat) (x : Channel) (v : Word), c < s.channelCount → s.ch[c]? = some x →
    (8 + 20 * c + 4 < 2 ^ 32 →
      decode s.channelCount (.mmioWrite (BitVec.ofNat 32 (8 + 20 * c + 4)) 4 v) = .ok (.wrCndtr c v))
    ∧ exec (.wrCndtr c v) s =
        .next { s with ch := s.ch.set c { x with cndtr := v, reloadCndtr := v }, result := .none, accesses := [] }
    ∧ (∀ k level t, exec (.wrCndtr c 0) s = .next t →
        runAll (List.replicate k (.req (c : Int) level)) t = .next t)

/-- 40_register_file.md R111: the read at `0x08 + 20·c + 8` gives back the register, not the masked address. -/
def Obligations.RdCparReturnsUnmaskedRegister : Prop :=
  ∀ (s : State) (c : Nat) (x : Channel), c < s.channelCount → s.ch[c]? = some x →
    (8 + 20 * c + 8 < 2 ^ 32 →
      decode s.channelCount (.mmioRead (BitVec.ofNat 32 (8 + 20 * c + 8)) 4) = .ok (.rdCpar c))
    ∧ exec (.rdCpar c) s = .next { s with result := .word x.cpar, accesses := [] }

/-- 40_register_file.md R110: the write at `0x08 + 20·c + 8` stores any 32-bit value unmasked, whatever PSIZE is,
and changes nothing else. -/
def Obligations.WrCparStoresUnmasked : Prop :=
  ∀ (s : State) (c : Nat) (x : Channel) (v : Word), c < s.channelCount → s.ch[c]? = some x →
    (8 + 20 * c + 8 < 2 ^ 32 →
      decode s.channelCount (.mmioWrite (BitVec.ofNat 32 (8 + 20 * c + 8)) 4 v) = .ok (.wrCpar c v))
    ∧ exec (.wrCpar c v) s =
        .next { s with ch := s.ch.set c { x with cpar := v }, result := .none, accesses := [] }

/-- 40_register_file.md R113: the read at `0x08 + 20·c + 12` gives back the register. -/
def Obligations.RdCmarReturnsUnmaskedRegister : Prop :=
  ∀ (s : State) (c : Nat) (x : Channel), c < s.channelCount → s.ch[c]? = some x →
    (8 + 20 * c + 12 < 2 ^ 32 →
      decode s.channelCount (.mmioRead (BitVec.ofNat 32 (8 + 20 * c + 12)) 4) = .ok (.rdCmar c))
    ∧ exec (.rdCmar c) s = .next { s with result := .word x.cmar, accesses := [] }

/-- 40_register_file.md R112: the write at `0x08 + 20·c + 12` stores any 32-bit value unmasked and changes nothing
else. -/
def Obligations.WrCmarStoresUnmasked : Prop :=
  ∀ (s : State) (c : Nat) (x : Channel) (v : Word), c < s.channelCount → s.ch[c]? = some x →
    (8 + 20 * c + 12 < 2 ^ 32 →
      decode s.channelCount (.mmioWrite (BitVec.ofNat 32 (8 + 20 * c + 12)) 4 v) = .ok (.wrCmar c v))
    ∧ exec (.wrCmar c v) s =
        .next { s with ch := s.ch.set c { x with cmar := v }, result := .none, accesses := [] }

/-- 40_register_file.md R114 and R115: every offset of an inactive index, whatever the sub-offset, reads 0 whatever
the slot holds, and ignores writes. -/
def Obligations.InactiveOffsetsReadZeroAndIgnoreWrites : Prop :=
  ∀ (s : State) (offset v : Word), 8 ≤ offset.toNat → s.channelCount ≤ (offset.toNat - 8) / 20 →
    decode s.channelCount (.mmioRead offset 4) = .ok (.rdInactive offset)
    ∧ decode s.channelCount (.mmioWrite offset 4 v) = .ok (.wrInactive offset v)
    ∧ exec (.rdInactive offset) s = .next { s with result := .word 0, accesses := [] }
    ∧ exec (.wrInactive offset v) s = .next { s with result := .none, accesses := [] }

/-- 40_register_file.md section 4: the unknown offsets of 30_encoding.md section 2 read 0 and ignore writes. That
offsets no multiple of 4 are unknown is the spec's own choice D13 (log entry 19). -/
def Obligations.UnknownOffsetsReadZeroAndIgnoreWrites : Prop :=
  ∀ (s : State) (offset v : Word),
    (offset.toNat ∈ [1, 2, 3, 5, 6, 7]
      ∨ (8 ≤ offset.toNat ∧ (offset.toNat - 8) / 20 < s.channelCount
          ∧ (offset.toNat - 8) % 20 ∉ [0, 4, 8, 12])) →
    decode s.channelCount (.mmioRead offset 4) = .ok (.rdUnknown offset)
    ∧ decode s.channelCount (.mmioWrite offset 4 v) = .ok (.wrUnknown offset v)
    ∧ exec (.rdUnknown offset) s = .next { s with result := .word 0, accesses := [] }
    ∧ exec (.wrUnknown offset v) s = .next { s with result := .none, accesses := [] }

/-! ### The register file: dispatch and whole-file properties -/

/-- 30_encoding.md section 2, the offset decode, said by the unique index and sub-offset of each offset and not by the
division that finds them. The sub-offsets it calls unknown are the spec's own choice D13 (log entry 19). -/
def Obligations.OffsetDecodeFollowsRegisterMap : Prop :=
  ∀ (n : Nat) (offset : Word),
    (offset.toNat = 0 → decodeOffset n offset = .isr)
    ∧ (offset.toNat = 4 → decodeOffset n offset = .ifcr)
    ∧ (offset.toNat < 8 → offset.toNat ≠ 0 → offset.toNat ≠ 4 → decodeOffset n offset = .unknown)
    ∧ (∀ c k, k < 20 → offset.toNat = 8 + 20 * c + k →
        (n ≤ c → decodeOffset n offset = .inactive c)
        ∧ (c < n → k = 0 → decodeOffset n offset = .channel c .ccr)
        ∧ (c < n → k = 4 → decodeOffset n offset = .channel c .cndtr)
        ∧ (c < n → k = 8 → decodeOffset n offset = .channel c .cpar)
        ∧ (c < n → k = 12 → decodeOffset n offset = .channel c .cmar)
        ∧ (c < n → k ∉ [0, 4, 8, 12] → decodeOffset n offset = .unknown))

/-- 40_register_file.md R100: what a 4-byte read at any offset of a constructed block gives back, and that it changes nothing else. -/
def Obligations.MmioReadReturnsDecodedRegister : Prop :=
  ∀ (s : State) (offset : Word) (rest : List Event),
    s.constructed = true → s.input = .operation (.mmioRead offset 4) :: rest →
    ∃ v, step s = .next { s with input := rest, result := .word v, accesses := [] }
      ∧ (decodeOffset s.channelCount offset = .isr → v = s.isr)
      ∧ (decodeOffset s.channelCount offset = .ifcr → v = s.ifcr)
      ∧ (∀ c x, s.ch[c]? = some x →
          (decodeOffset s.channelCount offset = .channel c .ccr → v = x.ccr)
          ∧ (decodeOffset s.channelCount offset = .channel c .cndtr → v = x.cndtr)
          ∧ (decodeOffset s.channelCount offset = .channel c .cpar → v = x.cpar)
          ∧ (decodeOffset s.channelCount offset = .channel c .cmar → v = x.cmar))
      ∧ (∀ c, decodeOffset s.channelCount offset = .inactive c → v = 0)
      ∧ (decodeOffset s.channelCount offset = .unknown → v = 0)

/-- 40_register_file.md R101: what a 4-byte write at any offset of a constructed block stores, and that it changes nothing else. -/
def Obligations.MmioWriteStoresInDecodedRegister : Prop :=
  ∀ (s : State) (offset v : Word) (rest : List Event),
    s.constructed = true → s.input = .operation (.mmioWrite offset 4 v) :: rest →
    (decodeOffset s.channelCount offset = .isr →
      step s = .next { s with input := rest, isr := v, result := .none, accesses := [] })
    ∧ (decodeOffset s.channelCount offset = .ifcr →
      step s = .next { s with input := rest, ifcr := v, result := .none, accesses := [] })
    ∧ (∀ c x, s.ch[c]? = some x →
      (decodeOffset s.channelCount offset = .channel c .ccr →
        step s = .next { s with
          input := rest, ch := s.ch.set c { x with ccr := v }, result := .none, accesses := [] })
      ∧ (decodeOffset s.channelCount offset = .channel c .cndtr →
        step s = .next { s with
          input := rest, ch := s.ch.set c { x with cndtr := v, reloadCndtr := v },
          result := .none, accesses := [] })
      ∧ (decodeOffset s.channelCount offset = .channel c .cpar →
        step s = .next { s with
          input := rest, ch := s.ch.set c { x with cpar := v }, result := .none, accesses := [] })
      ∧ (decodeOffset s.channelCount offset = .channel c .cmar →
        step s = .next { s with
          input := rest, ch := s.ch.set c { x with cmar := v }, result := .none, accesses := [] }))
    ∧ (∀ c, decodeOffset s.channelCount offset = .inactive c →
      step s = .next { s with input := rest, result := .none, accesses := [] })
    ∧ (decodeOffset s.channelCount offset = .unknown →
      step s = .next { s with input := rest, result := .none, accesses := [] })

/-- The boundary of 20_memory.md section 1: an access of a size other than 4 never reaches the block, whatever its
offset; the model refuses it. The refusal is the spec's own decision D12 (log entry 15). -/
def Obligations.MmioOfAnotherSizeIsRefused : Prop :=
  ∀ (s : State) (offset v : Word) (size : Nat) (rest : List Event), size ≠ 4 →
    (s.input = .operation (.mmioRead offset size) :: rest → step s = .refused .mmioSize)
    ∧ (s.input = .operation (.mmioWrite offset size v) :: rest → step s = .refused .mmioSize)

/-- 20_memory.md section 1: writing the same value twice at the same offset has the same effect as writing it
once. -/
def Obligations.RepeatedWriteIsIdempotent : Prop :=
  ∀ (s t : State) (offset v : Word) (i : Instr),
    decode s.channelCount (.mmioWrite offset 4 v) = .ok i → exec i s = .next t → exec i t = .next t

/-- 40_register_file.md section 5, the round trip: after a write, a read gives the value back, whatever operations
ran in between, so long as none of them may write that register. -/
def Obligations.RoundTripSurvivesOtherOperations : Prop :=
  ∀ (s t u : State) (c : Nat) (v : Word) (between : List Instr), s.Inv → c < s.channelCount →
    runAll between t = .next u →
    (exec (.wrIsr v) s = .next t → (∀ i ∈ between, ∀ w, mayWrite i w .isr = false) →
      exec .rdIsr u = .next { u with result := .word v, accesses := [] })
    ∧ (exec (.wrIfcr v) s = .next t → (∀ i ∈ between, ∀ w, mayWrite i w .ifcr = false) →
      exec .rdIfcr u = .next { u with result := .word v, accesses := [] })
    ∧ (exec (.wrCcr c v) s = .next t → (∀ i ∈ between, ∀ w, mayWrite i w (.ccr c) = false) →
      exec (.rdCcr c) u = .next { u with result := .word v, accesses := [] })
    ∧ (exec (.wrCndtr c v) s = .next t → (∀ i ∈ between, ∀ w, mayWrite i w (.cndtr c) = false) →
      exec (.rdCndtr c) u = .next { u with result := .word v, accesses := [] })
    ∧ (exec (.wrCpar c v) s = .next t → (∀ i ∈ between, ∀ w, mayWrite i w (.cpar c) = false) →
      exec (.rdCpar c) u = .next { u with result := .word v, accesses := [] })
    ∧ (exec (.wrCmar c v) s = .next t → (∀ i ∈ between, ∀ w, mayWrite i w (.cmar c) = false) →
      exec (.rdCmar c) u = .next { u with result := .word v, accesses := [] })

/-- 10_state.md R47: no operation changes a field of the block that the table does not let it write. A construction
resets (R52), so it counts as a reset too. -/
def Obligations.FieldsAreWrittenOnlyByTheirWriters : Prop :=
  ∀ (i : Instr) (s t : State) (f : BlockField), exec i s = .next t → mayWrite i s f = false → f.same s t

/-! ### The request router -/

/-- 41_request_router.md R132: a request whose index is negative or not below channel_count changes nothing and
makes no access. -/
def Obligations.RequestWithInvalidIndexIsIgnored : Prop :=
  ∀ (s : State) (channel level : Int), channel < 0 ∨ (s.channelCount : Int) ≤ channel →
    exec (.req channel level) s = .next { s with result := .none, accesses := [] }

/-- 41_request_router.md R133: every invocation is one request, whatever its level. A sequence of invocations of
one input, at any levels, is as many requests at level 1. -/
def Obligations.EveryInvocationIsOneRequestWhateverItsLevel : Prop :=
  ∀ (s : State) (channel level level' : Int) (levels : List Int),
    exec (.req channel level) s = exec (.req channel level') s
    ∧ runAll (levels.map (.req channel)) s = runAll (List.replicate levels.length (.req channel 1)) s

/-- 41_request_router.md section on pending requests, 70_reset_and_hazards.md section 3: requests to a disabled
channel leave no trace, so enabling it afterwards gives the state it would give without them. -/
def Obligations.LostRequestsLeaveNoTrace : Prop :=
  ∀ (s : State) (c k : Nat) (level : Int) (x : Channel) (v : Word),
    c < s.channelCount → s.ch[c]? = some x → ccrEn x.ccr = false →
    runAll (List.replicate k (.req (c : Int) level) ++ [.wrCcr c v]) s = runAll [.wrCcr c v] s

/-! ### The transfer engine -/

/-- 42_transfer_engine.md R141: EN = 0 or a count of 0 makes a request a complete no-op, whatever the rest of the
channel holds, reserved size codes included. -/
def Obligations.RejectedRequestIsACompleteNoOp : Prop :=
  ∀ (s : State) (c : Nat) (level : Int) (x : Channel), c < s.channelCount → s.ch[c]? = some x →
    (ccrEn x.ccr = false ∨ x.cndtr = 0) →
    exec (.req (c : Int) level) s = .next { s with result := .none, accesses := [] }

/-- The accepted request whole (42_transfer_engine.md sections 1 and 2), for every accessor: sides by DIR, each
masked by its own size, three accesses in order, the merge, the write, the increments and the count; nothing
else changes. On plain memory the values read are memory's before the request and the four bytes at the
destination become the merged window's. It rests on the spec's decisions D8, D9, D11 and D21 (log entries 6, 13,
14, 15). -/
def Obligations.AcceptedRequestMovesOneElement : Prop :=
  ∀ (s : State) (c : Nat) (level : Int) (x : Channel) (psize msize : ElemSize)
    (sa da se de : Word) (ssize dsize : ElemSize),
    s.Inv → c < s.channelCount → s.ch[c]? = some x → ccrEn x.ccr = true → x.cndtr ≠ 0 →
    sizeOfCode (ccrPsize x.ccr) = some psize → sizeOfCode (ccrMsize x.ccr) = some msize →
    (ccrDir x.ccr = false → sa = x.cpar ∧ ssize = psize ∧ da = x.cmar ∧ dsize = msize) →
    (ccrDir x.ccr = true → sa = x.cmar ∧ ssize = msize ∧ da = x.cpar ∧ dsize = psize) →
    se = sa &&& amask ssize → de = da &&& amask dsize →
    windowTouches s.accessor.selfWindow se = false → windowTouches s.accessor.selfWindow de = false →
    ∃ (t : State) (sv dv m : Word), exec (.req (c : Int) level) s = .next t
      ∧ m = (dv &&& ~~~(dmask dsize)) ||| (sv &&& dmask ssize)
      ∧ t = { s with
          mem := t.mem, draws := t.draws, result := .none
          accesses := [.read se sv, .read de dv, .write de m]
          ch := s.ch.set c { x with
            cmar := if ccrMinc x.ccr then x.cmar + 1 else x.cmar
            cpar := if ccrPinc x.ccr then x.cpar + 1 else x.cpar
            cndtr := if x.cndtr - 1 = 0 ∧ ccrCirc x.ccr = true then x.reloadCndtr else x.cndtr - 1 } }
      ∧ (∀ a : Word, (∀ i < 4, a ≠ de + BitVec.ofNat 32 i) →
          Memory.read t.mem a.toNat = Memory.read s.mem a.toNat)
      ∧ (windowTouches s.accessor.nonMemory se = false → sv = memRead s.mem se)
      ∧ (windowTouches s.accessor.nonMemory de = false → dv = memRead s.mem de
          ∧ ∀ i < 4, Memory.read t.mem (de + BitVec.ofNat 32 i).toNat = m.extractLsb' (8 * i) 8)
      ∧ (windowTouches s.accessor.nonMemory se = false → windowTouches s.accessor.nonMemory de = false →
          t.draws = s.draws)

/-- 20_memory.md R67: an accepted request makes exactly three accesses, source read, destination read, destination
write of the merged window; a rejected or ignored one makes none; no other operation touches the target space. -/
def Obligations.RequestsMakeThreeAccessesInOrder : Prop :=
  ∀ (s t : State),
    (∀ channel level, exec (.req channel level) s = .next t →
      (t = { s with result := .none, accesses := [] }
        ∧ (channel < 0 ∨ (s.channelCount : Int) ≤ channel
            ∨ ∀ x, s.ch[channel.toNat]? = some x → ccrEn x.ccr = false ∨ x.cndtr = 0))
      ∨ ∃ (x : Channel) (psize msize : ElemSize) (sv dv : Word),
          s.ch[channel.toNat]? = some x ∧ ccrEn x.ccr = true ∧ x.cndtr ≠ 0
          ∧ sizeOfCode (ccrPsize x.ccr) = some psize ∧ sizeOfCode (ccrMsize x.ccr) = some msize
          ∧ t.accesses = [.read (moveOf x psize msize).se sv, .read (moveOf x psize msize).de dv,
              .write (moveOf x psize msize).de
                (merge dv (moveOf x psize msize).dsize sv (moveOf x psize msize).ssize)])
    ∧ (∀ i, isRequest i = false → exec i s = .next t →
        t.accesses = [] ∧ t.mem = s.mem ∧ t.draws = s.draws ∧ t.input = s.input)

/-- 42_transfer_engine.md section 2, step 2: DIR alone chooses the sides, and each side keeps its own size. The polarity of the
bit is the spec's own choice D6 (log entry 12). -/
def Obligations.DirectionChoosesTheSides : Prop :=
  ∀ (x : Channel) (psize msize : ElemSize),
    (ccrDir x.ccr = false →
      (moveOf x psize msize).se = effectiveAddress x.cpar psize ∧ (moveOf x psize msize).ssize = psize
      ∧ (moveOf x psize msize).de = effectiveAddress x.cmar msize ∧ (moveOf x psize msize).dsize = msize)
    ∧ (ccrDir x.ccr = true →
      (moveOf x psize msize).se = effectiveAddress x.cmar msize ∧ (moveOf x psize msize).ssize = msize
      ∧ (moveOf x psize msize).de = effectiveAddress x.cpar psize ∧ (moveOf x psize msize).dsize = psize)

/-- 42_transfer_engine.md section 2, step 3: the size's mask aligns the effective address down to the element size; the
registers keep their unmasked values and are incremented unmasked. That the increment wraps from 0xFFFFFFFF to 0 is
the spec's own choice D8 (log entry 13). -/
def Obligations.EffectiveAddressIsAlignedDown : Prop :=
  ∀ (a : Word) (x : Channel),
    effectiveAddress a .byte = a
    ∧ (effectiveAddress a .halfword).toNat = a.toNat - a.toNat % 2
    ∧ (effectiveAddress a .word).toNat = a.toNat - a.toNat % 4
    ∧ (afterElement x).cpar = (if ccrPinc x.ccr then x.cpar + 1 else x.cpar)
    ∧ (afterElement x).cmar = (if ccrMinc x.ccr then x.cmar + 1 else x.cmar)
    ∧ effectiveAddress 0xFFFFFFFF#32 .byte = 0xFFFFFFFF#32
    ∧ effectiveAddress 0x1003#32 .halfword = 0x1002#32
    ∧ effectiveAddress 0x2003#32 .word = 0x2000#32

/-- 42_transfer_engine.md R148: the merged window's four bytes for every pair of sizes, as the table of that rule
has them. -/
def Obligations.NarrowMergeFollowsTheTable : Prop :=
  ∀ (s d : Word) (ssize dsize : ElemSize),
    merge d dsize s ssize = (d &&& ~~~(dmask dsize)) ||| (s &&& dmask ssize)
    ∧ laneOf (merge d dsize s ssize) 0 = laneOf s 0
    ∧ laneOf (merge d dsize s ssize) 1 = (match ssize, dsize with
        | .byte, .byte => laneOf d 1
        | .byte, _ => 0
        | _, .byte => laneOf d 1 ||| laneOf s 1
        | _, _ => laneOf s 1)
    ∧ laneOf (merge d dsize s ssize) 2 = (match ssize, dsize with
        | .word, .word => laneOf s 2
        | .word, _ => laneOf d 2 ||| laneOf s 2
        | _, .word => 0
        | _, _ => laneOf d 2)
    ∧ laneOf (merge d dsize s ssize) 3 = (match ssize, dsize with
        | .word, .word => laneOf s 3
        | .word, _ => laneOf d 3 ||| laneOf s 3
        | _, .word => 0
        | _, _ => laneOf d 3)

/-- 42_transfer_engine.md section 2, step 8: MINC and PINC, each alone, add exactly 1 to their register, whatever
the element size and whichever side it was. The wrap from 0xFFFFFFFF to 0 is the spec's own choice D8 (log
entry 13). -/
def Obligations.IncrementIsOneWhateverTheSize : Prop :=
  ∀ (s t : State) (c : Nat) (level : Int) (x : Channel), c < s.channelCount → s.ch[c]? = some x →
    exec (.req (c : Int) level) s = .next t → t.accesses ≠ [] →
    ∃ y, t.ch[c]? = some y
      ∧ y.cmar.toNat = (x.cmar.toNat + (if ccrMinc x.ccr then 1 else 0)) % 2 ^ 32
      ∧ y.cpar.toNat = (x.cpar.toNat + (if ccrPinc x.ccr then 1 else 0)) % 2 ^ 32

/-- 42_transfer_engine.md R152: a transfer subtracts exactly 1 from a count that is not 0; when that leaves 0 and
CIRC is set the count is the reload value, and without CIRC it stays 0; EN and the rest of CCR stay, and with the
count at 0 the next request is a no-op. -/
def Obligations.CountDecrementsAndReloads : Prop :=
  ∀ (s t : State) (c : Nat) (level : Int) (x : Channel), c < s.channelCount → s.ch[c]? = some x →
    exec (.req (c : Int) level) s = .next t → t.accesses ≠ [] →
    ∃ y, t.ch[c]? = some y ∧ y.ccr = x.ccr ∧ y.reloadCndtr = x.reloadCndtr ∧ 1 ≤ x.cndtr.toNat
      ∧ (2 ≤ x.cndtr.toNat → y.cndtr.toNat + 1 = x.cndtr.toNat)
      ∧ (x.cndtr.toNat = 1 → ccrCirc x.ccr = true → y.cndtr = x.reloadCndtr)
      ∧ (x.cndtr.toNat = 1 → ccrCirc x.ccr = false → y.cndtr = 0)
      ∧ (y.cndtr = 0 → ∀ level', exec (.req (c : Int) level') t = .next { t with result := .none, accesses := [] })

/-- 42_transfer_engine.md section 3: no transfer writes ISR or IFCR, and the interrupt-enable flags TCIE, HTIE and TEIE
change nothing a transfer does. That they are bits 1, 2 and 3 of CCR is the spec's own choice D3 (log entry 12). -/
def Obligations.TransfersNeverTouchInterruptRegisters : Prop :=
  ∀ (s t : State) (channel level : Int), exec (.req channel level) s = .next t →
    t.isr = s.isr ∧ t.ifcr = s.ifcr
    ∧ (∀ (c : Nat) (x : Channel) (flips : BitVec 3), s.ch[c]? = some x →
        ∃ y, t.ch[c]? = some y
          ∧ exec (.req channel level)
              { s with ch := s.ch.set c { x with ccr := x.ccr ^^^ (flips.setWidth 32 <<< 1) } }
            = .next { t with ch := t.ch.set c { y with ccr := y.ccr ^^^ (flips.setWidth 32 <<< 1) } })

/-- 42_transfer_engine.md section 3: a transfer reads only EN, DIR, CIRC, PINC, MINC, PSIZE and MSIZE of CCR. Two
states that differ only in the rest of one channel's CCR run every request alike, next state and refusal. -/
def Obligations.StoredOnlyBitsOfCcrChangeNothing : Prop :=
  ∀ (s : State) (channel level : Int) (c : Nat) (x : Channel) (w : Word), s.ch[c]? = some x →
    ccrEn w = ccrEn x.ccr → ccrDir w = ccrDir x.ccr → ccrCirc w = ccrCirc x.ccr →
    ccrPinc w = ccrPinc x.ccr → ccrMinc w = ccrMinc x.ccr →
    ccrPsize w = ccrPsize x.ccr → ccrMsize w = ccrMsize x.ccr →
    (∀ r, exec (.req channel level) s = .refused r →
      exec (.req channel level) { s with ch := s.ch.set c { x with ccr := w } } = .refused r)
    ∧ (∀ t, exec (.req channel level) s = .next t →
      ∃ y, t.ch[c]? = some y
        ∧ exec (.req channel level) { s with ch := s.ch.set c { x with ccr := w } }
          = .next { t with ch := t.ch.set c { y with ccr := w } })

/-- 42_transfer_engine.md section 3, the circular scenario: in circular mode the k-th request leaves the count at
`v - k mod v`, so it is reloaded by the request that brings it to 0 (section 2, step 9), and the addresses go on from
where they were and are never rewound. The target is any with an empty SELF_WINDOW. That every request completes on
it is the spec's own choice D11 (log entry 14), and that the addresses wrap modulo 2^32 is D8 (log entry 13). -/
def Obligations.CircularModeReloadsTheCountAndNotTheAddresses : Prop :=
  ∀ (s : State) (c k : Nat) (level : Int) (x : Channel),
    c < s.channelCount → s.ch[c]? = some x → s.accessor.selfWindow = [] →
    ccrEn x.ccr = true → ccrCirc x.ccr = true → x.cndtr ≠ 0 → x.reloadCndtr = x.cndtr →
    (sizeOfCode (ccrPsize x.ccr)).isSome = true → (sizeOfCode (ccrMsize x.ccr)).isSome = true →
    ∃ t y, runAll (List.replicate k (.req (c : Int) level)) s = .next t ∧ t.ch[c]? = some y
      ∧ y.cndtr.toNat = x.cndtr.toNat - k % x.cndtr.toNat
      ∧ y.reloadCndtr = x.reloadCndtr
      ∧ y.cmar = (if ccrMinc x.ccr then x.cmar + BitVec.ofNat 32 k else x.cmar)
      ∧ y.cpar = (if ccrPinc x.ccr then x.cpar + BitVec.ofNat 32 k else x.cpar)

/-- 42_transfer_engine.md section 2, step 9, without circular mode: of k requests the first `cndtr` move an element
and step the addresses, every later one is a no-op, and the count never goes below 0. The target is any with an empty SELF_WINDOW.
That every request completes on it is the spec's own choice D11 (log entry 14), and that the addresses wrap modulo
2^32 is D8 (log entry 13). -/
def Obligations.NonCircularChannelStopsAtZero : Prop :=
  ∀ (s : State) (c k : Nat) (level : Int) (x : Channel),
    c < s.channelCount → s.ch[c]? = some x → s.accessor.selfWindow = [] →
    ccrEn x.ccr = true → ccrCirc x.ccr = false →
    (sizeOfCode (ccrPsize x.ccr)).isSome = true → (sizeOfCode (ccrMsize x.ccr)).isSome = true →
    ∃ t y, runAll (List.replicate k (.req (c : Int) level)) s = .next t ∧ t.ch[c]? = some y
      ∧ y.cndtr.toNat = x.cndtr.toNat - k
      ∧ y.cmar = (if ccrMinc x.ccr then x.cmar + BitVec.ofNat 32 (min k x.cndtr.toNat) else x.cmar)
      ∧ y.cpar = (if ccrPinc x.ccr then x.cpar + BitVec.ofNat 32 (min k x.cndtr.toNat) else x.cpar)

/-- 42_transfer_engine.md section 4: with both effective addresses equal and equal sizes, the window is written
back unchanged, so a request changes no byte of plain memory. -/
def Obligations.CopyOntoItselfChangesNoByte : Prop :=
  ∀ (s t : State) (channel level : Int) (x : Channel) (size : ElemSize), s.Inv →
    s.ch[channel.toNat]? = some x →
    sizeOfCode (ccrPsize x.ccr) = some size → sizeOfCode (ccrMsize x.ccr) = some size →
    effectiveAddress x.cpar size = effectiveAddress x.cmar size →
    windowTouches s.accessor.nonMemory (effectiveAddress x.cpar size) = false →
    exec (.req channel level) s = .next t → t.mem = s.mem

/-- 42_transfer_engine.md section 2 and 20_memory.md section 3: an accepted request is refused when PSIZE or MSIZE is
the reserved code, and, its sizes being legal, when a window touches the block's own registers; a rejected one is
not refused (60_exceptions.md section 3). The refusals are the spec's own decisions D5 and D21 (log entry 15). -/
def Obligations.ReservedSizeAndOwnWindowAreRefused : Prop :=
  ∀ (s : State) (c : Nat) (level : Int) (x : Channel), c < s.channelCount → s.ch[c]? = some x →
    ccrEn x.ccr = true → x.cndtr ≠ 0 →
    ((ccrPsize x.ccr = 0b11#2 ∨ ccrMsize x.ccr = 0b11#2) →
      exec (.req (c : Int) level) s = .refused .reservedSize)
    ∧ (∀ psize msize, sizeOfCode (ccrPsize x.ccr) = some psize → sizeOfCode (ccrMsize x.ccr) = some msize →
      (windowTouches s.accessor.selfWindow (effectiveAddress x.cpar psize) = true
        ∨ windowTouches s.accessor.selfWindow (effectiveAddress x.cmar msize) = true) →
      exec (.req (c : Int) level) s = .refused .selfAccess)

/-- 60_exceptions.md section 6: a request reads and writes only its own channel's slot. Two states that agree on
that slot, the configuration and the target space give the same new slot, the same accesses and the same target
space; every other slot of each stays. -/
def Obligations.RequestSeesAndChangesOnlyItsOwnSlot : Prop :=
  ∀ (s s' t : State) (c : Nat) (level : Int),
    s'.channelCount = s.channelCount → s'.accessor = s.accessor → s'.mem = s.mem → s'.draws = s.draws →
    s'.ch[c]? = s.ch[c]? → exec (.req (c : Int) level) s = .next t →
    ∃ t', exec (.req (c : Int) level) s' = .next t'
      ∧ t'.ch[c]? = t.ch[c]? ∧ t'.mem = t.mem ∧ t'.draws = t.draws ∧ t'.accesses = t.accesses
      ∧ (∀ d, d ≠ c → t.ch[d]? = s.ch[d]? ∧ t'.ch[d]? = s'.ch[d]?)

/-- 20_memory.md section 4: requests to different channels commute in their effect on the block's own state, and, on
plain memory, in their effect on the target space when no window of one overlaps a window of the other. -/
def Obligations.RequestsToDifferentChannelsCommute : Prop :=
  ∀ (s t t' : State) (c d : Nat) (level level' : Int), c ≠ d →
    exec (.req (c : Int) level) s = .next t → exec (.req (d : Int) level') s = .next t' →
    ∃ u u', exec (.req (d : Int) level') t = .next u ∧ exec (.req (c : Int) level) t' = .next u'
      ∧ u.isr = u'.isr ∧ u.ifcr = u'.ifcr ∧ u.ch = u'.ch ∧ u.channelCount = u'.channelCount
      ∧ u.accessor = u'.accessor
      ∧ (s.Inv → s.accessor.nonMemory = [] →
          (∀ e ∈ t.accesses, ∀ e' ∈ t'.accesses, ∀ i < 4, ∀ j < 4,
            windowAddress e.address i ≠ windowAddress e'.address j) →
          u.mem = u'.mem)

/-! ### Reset, construction, snapshot and restore -/

/-- 70_reset_and_hazards.md R220: reset zeroes isr, ifcr and all five fields of every slot, inactive ones included,
whatever was there, and changes nothing else. -/
def Obligations.ResetClearsEveryRegister : Prop :=
  ∀ (s : State) (n : Nat),
    decode n .reset = .ok .rst
    ∧ exec .rst s = .next { s with
        isr := 0, ifcr := 0, result := .none, accesses := []
        ch := List.replicate s.ch.length
          { ccr := 0, cndtr := 0, reloadCndtr := 0, cpar := 0, cmar := 0 } }

/-- 70_reset_and_hazards.md section 1: after reset every request, on any input, is a no-op. -/
def Obligations.AfterResetEveryRequestIsANoOp : Prop :=
  ∀ (s t : State) (channel level : Int), exec .rst s = .next t →
    exec (.req channel level) t = .next { t with result := .none, accesses := [] }

/-- 43_lifecycle.md section 1: on a machine without a block, construction without an accessor is the fatal error; with
one, and a count in 1..MAX_CHANNELS, it makes the block, binds both and resets every register, leaving the target
space. A block is constructed once, so a second construction is refused. That a count outside the range is fatal is
the spec's own choice D18 (log entry 17), and that a second construction is a refusal is the model's (log entry 10). -/
def Obligations.ConstructionBindsAndResets : Prop :=
  ∀ (s : State) (n : Nat) (a : Accessor),
    (s.constructed = false →
      exec (.cfg n none) s = .fault .noAccessor
      ∧ ((n < 1 ∨ s.ch.length < n) → exec (.cfg n (some a)) s = .fault .badChannelCount)
      ∧ (1 ≤ n → n ≤ s.ch.length →
          exec (.cfg n (some a)) s = .next { s with
            constructed := true, channelCount := n, accessor := a, isr := 0, ifcr := 0
            result := .none, accesses := []
            ch := List.replicate s.ch.length
              { ccr := 0, cndtr := 0, reloadCndtr := 0, cpar := 0, cmar := 0 } }))
    ∧ (s.constructed = true → ∀ accessor, exec (.cfg n accessor) s = .refused .alreadyConstructed)

/-- 43_lifecycle.md section 2: the record has 3 + 5·MAX_CHANNELS fields in the fixed order, and taking it changes
nothing. That it holds every slot is the spec's own choice D19; the form of channel_count is log entry 16. -/
def Obligations.SnapshotHasTheFixedFieldOrder : Prop :=
  ∀ (s : State), ∃ r, exec .snap s = .next { s with result := .record r, accesses := [] }
    ∧ r.length = 3 + 5 * s.ch.length
    ∧ r[0]? = some s.isr ∧ r[1]? = some s.ifcr ∧ r[2]? = some (BitVec.ofNat 32 s.channelCount)
    ∧ (∀ c x, s.ch[c]? = some x →
        r[3 + 5 * c + 0]? = some x.ccr ∧ r[3 + 5 * c + 1]? = some x.cndtr
        ∧ r[3 + 5 * c + 2]? = some x.reloadCndtr ∧ r[3 + 5 * c + 3]? = some x.cpar
        ∧ r[3 + 5 * c + 4]? = some x.cmar)

/-- 43_lifecycle.md section 2: a record of the wrong length, then one with another channel_count, is refused; any
other is loaded verbatim into isr, ifcr and every slot, and nothing else changes. The refusals are the spec's own
decision D20 (log entry 15). -/
def Obligations.RestoreLoadsTheRecordVerbatim : Prop :=
  ∀ (s : State) (r : List Word),
    (r.length ≠ 3 + 5 * s.ch.length → exec (.load r) s = .refused .restoreShape)
    ∧ (r.length = 3 + 5 * s.ch.length →
      (r[2]? ≠ some (BitVec.ofNat 32 s.channelCount) → exec (.load r) s = .refused .restoreMismatch)
      ∧ (r[2]? = some (BitVec.ofNat 32 s.channelCount) →
        ∃ t, exec (.load r) s = .next t
          ∧ t = { s with isr := t.isr, ifcr := t.ifcr, ch := t.ch, result := .none, accesses := [] }
          ∧ r[0]? = some t.isr ∧ r[1]? = some t.ifcr ∧ t.ch.length = s.ch.length
          ∧ (∀ c x, t.ch[c]? = some x →
              r[3 + 5 * c + 0]? = some x.ccr ∧ r[3 + 5 * c + 1]? = some x.cndtr
              ∧ r[3 + 5 * c + 2]? = some x.reloadCndtr ∧ r[3 + 5 * c + 3]? = some x.cpar
              ∧ r[3 + 5 * c + 4]? = some x.cmar)))

/-- 43_lifecycle.md section 2: a snapshot, then any operations, then a restore of that snapshot gives back the block's
state as it was at the snapshot, though not the target space's. On a constructed block the operations are any; where
no block exists yet, none of them is a construction. -/
def Obligations.RestoreOfASnapshotUndoesAllButMemory : Prop :=
  ∀ (s t u : State) (r : List Word) (between : List Instr),
    exec .snap s = .next t → t.result = .record r →
    (s.constructed = true ∨ ∀ i ∈ between, isConstruction i = false) →
    runAll between t = .next u →
    exec (.load r) u = .next { u with
      isr := s.isr, ifcr := s.ifcr, ch := s.ch, channelCount := s.channelCount, accessor := s.accessor,
      result := .none, accesses := [] }

/-! ### Memory -/

/-- 20_memory.md section 2, the plain-memory reference: a window written is read back, lies little-endian in its four
bytes, and every other byte stays. That the bytes wrap at the top of the space is the spec's own choice D9 (log
entry 13). -/
def Obligations.WindowIsStoredLittleEndian : Prop :=
  ∀ (m : Memory) (a v : Word), Memory.wf m = true →
    memRead (memWrite [] m a v) a = v
    ∧ Memory.read (memWrite [] m a v) a.toNat = v.extractLsb' 0 8
    ∧ Memory.read (memWrite [] m a v) (a + 1).toNat = v.extractLsb' 8 8
    ∧ Memory.read (memWrite [] m a v) (a + 2).toNat = v.extractLsb' 16 8
    ∧ Memory.read (memWrite [] m a v) (a + 3).toNat = v.extractLsb' 24 8
    ∧ (∀ k : Word, k ≠ a → k ≠ a + 1 → k ≠ a + 2 → k ≠ a + 3 →
        Memory.read (memWrite [] m a v) k.toNat = Memory.read m k.toNat)

/-- 20_memory.md section 2: the low lanes of a window are the narrow element at its address. That a halfword at
0xFFFFFFFF takes its second byte from address 0 is the spec's own choice D9 (log entry 13). -/
def Obligations.NarrowElementIsTheLowLanes : Prop :=
  ∀ (m : Memory) (a : Word),
    memRead m a &&& dmask .byte = (Memory.read m a.toNat).setWidth 32
    ∧ memRead m a &&& dmask .halfword
        = (Memory.read m a.toNat).setWidth 32 ||| (Memory.read m (a + 1).toNat).setWidth 32 <<< 8
    ∧ memRead m a &&& dmask .word = memRead m a

/-! ### Whole-machine rules -/

/-- A step keeps the invariant: channel_count stays in 1..MAX_CHANNELS, memory keeps its canonical form, MAX_CHANNELS
itself never changes, and a block that exists goes on existing. -/
def Obligations.EveryStepKeepsTheInvariant : Prop :=
  ∀ (s t : State), s.Inv → step s = .next t →
    t.Inv ∧ t.ch.length = s.ch.length ∧ (s.constructed = true → t.constructed = true)

/-- The state after reset meets the invariant, its inactive slots are 0 and the block exists. -/
def Obligations.ResetStateMeetsTheInvariant : Prop :=
  State.reset.Inv ∧ State.reset.InactiveZero ∧ State.reset.constructed = true

/-- 10_state.md section 5: the fields of every inactive slot stay 0 until a restore. -/
def Obligations.InactiveSlotsStayZeroUntilRestore : Prop :=
  ∀ (s t : State), s.Inv → s.InactiveZero → (∀ r rest, s.input ≠ .operation (.restore r) :: rest) →
    step s = .next t → t.InactiveZero

/-- 60_exceptions.md section 1: the only fatal condition is at construction, and none can occur after it. That a count outside the range is
fatal is the spec's own choice D18 (log entry 17). -/
def Obligations.OnlyConstructionIsFatal : Prop :=
  ∀ (s : State) (f : Fault), step s = .fault f →
    s.constructed = false ∧ ∃ n acc rest, s.input = .operation (.construct n acc) :: rest
      ∧ ((f = .noAccessor ∧ acc = none)
          ∨ (f = .badChannelCount ∧ acc ≠ none ∧ (n < 1 ∨ s.ch.length < n)))

/-- 60_exceptions.md section 1, the closed list of refusals, and the two that break the host's duty to construct once
and before any other operation (43_lifecycle.md section 3): what each one means of the event that met it. The list is
the spec's own decisions D5, D12, D20, D21 (log entry 15); the last two are the model's (log entry 10). -/
def Obligations.RefusalsAreTheClosedList : Prop :=
  ∀ (s : State) (r : Refusal), step s = .refused r →
    (r = .mmioSize ∧ ∃ offset v size rest, size ≠ 4
        ∧ (s.input = .operation (.mmioRead offset size) :: rest
            ∨ s.input = .operation (.mmioWrite offset size v) :: rest))
    ∨ (r = .reservedSize ∧ s.constructed = true ∧ ∃ c level rest x, s.input = .operation (.request (Int.ofNat c) level) :: rest
        ∧ c < s.channelCount ∧ s.ch[c]? = some x ∧ ccrEn x.ccr = true ∧ x.cndtr ≠ 0
        ∧ (ccrPsize x.ccr = 0b11#2 ∨ ccrMsize x.ccr = 0b11#2))
    ∨ (r = .selfAccess ∧ s.constructed = true ∧ ∃ c level rest x psize msize,
        s.input = .operation (.request (Int.ofNat c) level) :: rest
        ∧ c < s.channelCount ∧ s.ch[c]? = some x ∧ ccrEn x.ccr = true ∧ x.cndtr ≠ 0
        ∧ sizeOfCode (ccrPsize x.ccr) = some psize ∧ sizeOfCode (ccrMsize x.ccr) = some msize
        ∧ (windowTouches s.accessor.selfWindow (effectiveAddress x.cpar psize) = true
            ∨ windowTouches s.accessor.selfWindow (effectiveAddress x.cmar msize) = true))
    ∨ (r = .restoreShape ∧ s.constructed = true ∧ ∃ record rest, s.input = .operation (.restore record) :: rest
        ∧ record.length ≠ 3 + 5 * s.ch.length)
    ∨ (r = .restoreMismatch ∧ s.constructed = true ∧ ∃ record rest, s.input = .operation (.restore record) :: rest
        ∧ record.length = 3 + 5 * s.ch.length ∧ record[2]? ≠ some (BitVec.ofNat 32 s.channelCount))
    ∨ (r = .alreadyConstructed ∧ s.constructed = true
        ∧ ∃ n acc rest, s.input = .operation (.construct n acc) :: rest)
    ∨ (r = .notConstructed ∧ s.constructed = false ∧ ∃ o rest, s.input = .operation o :: rest
        ∧ ∀ n acc, o ≠ .construct n acc)

/-- A step runs the decoded operation: when the next event is an operation that decodes to `i`, and the block exists
or `i` is the construction that makes it, the step is `exec i` on the state without that event, and nothing is added
around it. Before the construction every other operation is refused (log entry 10). -/
def Obligations.StepRunsTheDecodedOperation : Prop :=
  ∀ (s : State) (o : Operation) (i : Instr) (rest : List Event),
    s.input = .operation o :: rest → decode s.channelCount o = .ok i →
    (s.constructed = true ∨ isConstruction i = true → step s = exec i { s with input := rest })
    ∧ (s.constructed = false → isConstruction i = false → step s = .refused .notConstructed)

/-- The other two cases of a step (log entry 8): with nothing to come nothing changes, and another agent's store
changes exactly one byte of the target space, at whatever address (log entry 22). -/
def Obligations.IdleAndForeignStoresTouchNoBlockState : Prop :=
  ∀ (s : State),
    (s.input = [] → step s = .next s)
    ∧ (∀ a b rest, s.input = .targetStore a b :: rest → s.Inv →
        ∃ t, step s = .next t ∧ t = { s with input := rest, mem := t.mem }
          ∧ Memory.read t.mem a.toNat = b
          ∧ ∀ k : Word, k ≠ a → Memory.read t.mem k.toNat = Memory.read s.mem k.toNat)

/-! ### Encoding -/

/-- Decoding the encoding of a well-formed operation gives it back, with every operand. -/
def Obligations.DecodeOfEncodeIsTheInstruction : Prop :=
  ∀ (n : Nat) (i : Instr), i.wellFormed n = true → decode n (encode i) = .ok i

/-- The other direction: whatever decodes is well formed, and its encoding is the operation it came from. -/
def Obligations.EncodeOfDecodeIsTheOperation : Prop :=
  ∀ (n : Nat) (o : Operation) (i : Instr), decode n o = .ok i → i.wellFormed n = true ∧ encode i = o

/-- Words written out from the register map of 30_encoding.md section 2 (block with 7 active channels, and with 2)
and from the formats of its section 1. -/
def Obligations.WrittenOutOperationsDecode : Prop :=
  decode 7 (.mmioRead 0b00000000000000000000000000000000#32 4) = .ok .rdIsr
  ∧ decode 7 (.mmioWrite 0b00000000000000000000000000000100#32 4 0xF#32) = .ok (.wrIfcr 0xF#32)
  ∧ decode 7 (.mmioRead 0b00000000000000000000000000011100#32 4) = .ok (.rdCcr 1)
  ∧ decode 7 (.mmioWrite 0b00000000000000000000000000001100#32 4 4#32) = .ok (.wrCndtr 0 4#32)
  ∧ decode 7 (.mmioRead 0b00000000000000000000000010001100#32 4) = .ok (.rdCmar 6)
  ∧ decode 2 (.mmioRead 0b00000000000000000000000000110000#32 4) = .ok (.rdInactive 0x30#32)
  ∧ decode 2 (.mmioWrite 0b00000000000000000000000000011000#32 4 1#32) = .ok (.wrUnknown 0x18#32 1#32)
  ∧ decode 2 (.mmioRead 0b00000000000000000000000000001000#32 2) = .error .mmioSize
  ∧ decode 2 (.request (-1) 0) = .ok (.req (-1) 0)
  ∧ decode 2 .snapshot = .ok .snap

/-! ### The life of a block -/

/-- 43_lifecycle.md R171: once a block is constructed, it stays constructed, with its channel_count, its accessor and
all its slots, through every run of the machine, and at no point of the run does a construction complete. -/
def Obligations.ChannelCountAndAccessorAreFixedForLife : Prop :=
  ∀ (s t : State) (k : Nat), s.constructed = true → Host.Core.run Sys2Proof.core k s = .next t →
    t.constructed = true ∧ t.channelCount = s.channelCount ∧ t.accessor = s.accessor
    ∧ t.ch.length = s.ch.length
    ∧ (∀ n acc rest u, t.input = .operation (.construct n acc) :: rest → step t ≠ .next u)

/-- 70_reset_and_hazards.md sections 2 and 4: a run starts with a construction. On a machine without a block, with
memory in canonical form, a construction with an accessor and a count in 1..MAX_CHANNELS gives a block that meets the
invariant, every request to it being a no-op until a channel is programmed. -/
def Obligations.ARunStartsWithAConstruction : Prop :=
  ∀ (s : State) (n : Nat) (a : Accessor) (rest : List Event),
    s.constructed = false → Memory.wf s.mem = true → 1 ≤ n → n ≤ s.ch.length →
    s.input = .operation (.construct n (some a)) :: rest →
    ∃ t, step s = .next t ∧ t.constructed = true ∧ t.channelCount = n ∧ t.accessor = a ∧ t.Inv ∧ t.InactiveZero
      ∧ t.mem = s.mem ∧ t.input = rest
      ∧ ∀ channel level, exec (.req channel level) t = .next { t with result := .none, accesses := [] }
end

