-- ==== Sys2Proof/Laws/Decode.lean ====
section
/-!
SUPPORT. The laws of the offset decode: what each target says of the offset and the offset of the target, and
that a decoded operation keeps its operands.
-/

namespace Sys2Proof

theorem registerAt_none {k : Nat} (h : k ∉ [0, 4, 8, 12]) : registerAt k = none := by
  simp only [List.mem_cons, List.not_mem_nil, or_false, not_or] at h
  simp [registerAt, h]

/-- An offset past the global registers, by its unique index and sub-offset. -/
theorem decodeOffset_of_split {n c k : Nat} {offset : Word} (hk : k < 20) (h : offset.toNat = 8 + 20 * c + k) :
    decodeOffset n offset = if n ≤ c then .inactive c else
      match registerAt k with
      | some r => .channel c r
      | none => .unknown := by
  have h₁ : (offset.toNat - 8) / 20 = c := by omega
  have h₂ : (offset.toNat - 8) % 20 = k := by omega
  unfold decodeOffset
  refine (if_neg (by omega)).trans ((if_neg (by omega)).trans ((if_neg (by omega)).trans ?_))
  cases hr : registerAt k <;> simp [h₁, h₂, hr]

/-- The offset of a register of an active channel decodes to it. -/
theorem decodeOffset_channelOffset {n c k : Nat} {r : ChannelRegister} (hc : c < n) (hk : k < 20)
    (hr : registerAt k = some r) (h : 8 + 20 * c + k < 2 ^ 32) :
    decodeOffset n (channelOffset c k) = .channel c r := by
  rw [decodeOffset_of_split hk (by rw [channelOffset, BitVec.toNat_ofNat, Nat.mod_eq_of_lt h]), if_neg (by omega), hr]

theorem decodeOffset_of_inactive {n : Nat} {offset : Word} (h : offsetIsInactive n offset = true) :
    decodeOffset n offset = .inactive ((offset.toNat - 8) / 20) := by
  simp only [offsetIsInactive, Bool.and_eq_true, decide_eq_true_eq] at h
  unfold decodeOffset
  rw [if_neg (by omega), if_neg (by omega), if_neg (by omega), if_pos h.2]

theorem decodeOffset_of_unknown {n : Nat} {offset : Word} (h : offsetIsUnknown n offset = true) :
    decodeOffset n offset = .unknown := by
  simp [offsetIsUnknown] at h
  unfold decodeOffset
  rcases h with h | ⟨⟨h₈, hc⟩, hk⟩
  · rw [if_neg (by omega), if_neg (by omega), if_pos (by omega)]
  · rw [if_neg (by omega), if_neg (by omega), if_neg (by omega), if_neg (by omega), registerAt_none (by simpa using hk)]

/-- A channel target is an active channel. -/
theorem lt_of_decodeOffset_channel {n c : Nat} {offset : Word} {r : ChannelRegister}
    (h : decodeOffset n offset = .channel c r) : c < n := by
  unfold decodeOffset at h
  split_ifs at h
  split at h <;> cases h
  omega

/-- The operations that are no MMIO access decode to themselves alone. -/
theorem decode_lifecycle {n : Nat} {o : Operation} {i : Instr} (h : decode n o = .ok i) :
    (∀ channel level, i = .req channel level → o = .request channel level)
    ∧ (∀ m a, i = .cfg m a → o = .construct m a) ∧ (∀ r, i = .load r → o = .restore r) := by
  cases o with
  | mmioRead offset size =>
    simp only [decode] at h
    split_ifs at h
    cases h
    cases decodeOffset n offset with
    | channel c r => cases r <;> simp [readOf]
    | _ => simp [readOf]
  | mmioWrite offset size v =>
    simp only [decode] at h
    split_ifs at h
    cases h
    cases decodeOffset n offset with
    | channel c r => cases r <;> simp [writeOf]
    | _ => simp [writeOf]
  | _ => cases h; simp

end Sys2Proof
end

