-- ==== Sys2Proof/Laws/Memory.lean ====
section
/-!
SUPPORT. The laws of plain memory: a byte written is read back, every other byte stays, the canonical form is
kept, and equal contents are equal lists.
-/

namespace Sys2Proof.Machine

/-- Every listed address of the list is above `a`. -/
abbrev Memory.above (m : Memory) (a : Nat) : Prop := ∀ e ∈ m, a < e.1

theorem Memory.wf_cons {k : Nat} {x : Byte} {m : Memory} :
    Memory.wf ((k, x) :: m) = true ↔
      k < 2 ^ 32 ∧ x ≠ Memory.unlisted ∧ Memory.above m k ∧ Memory.wf m = true := by
  simp [Memory.wf, Memory.above, and_assoc]

/-- An address below every listed one reads as unlisted. -/
theorem Memory.read_of_above {m : Memory} {a : Nat} (h : Memory.above m a) :
    Memory.read m a = Memory.unlisted := by
  induction m with
  | nil => rfl
  | cons e m ih =>
    have h₁ := h e (by simp)
    have h₂ : Memory.above m a := fun e' he' => h e' (by simp [he'])
    rw [Memory.read, if_neg (by omega), ih h₂]

theorem Memory.above_mono {m : Memory} {a b : Nat} (h : Memory.above m b) (hab : a ≤ b) :
    Memory.above m a := fun e he => Nat.lt_of_le_of_lt hab (h e he)

/-- A write lists nothing new at or below a bound under which neither the memory nor the address lies. -/
theorem Memory.above_write {m : Memory} {k a : Nat} {b : Byte} (h : Memory.above m k) (hk : k < a) :
    Memory.above (Memory.write m a b) k := by
  induction m with
  | nil => unfold Memory.write; split <;> simp [Memory.above, hk]
  | cons e m ih =>
    obtain ⟨k', x⟩ := e
    have h₁ : k < k' := h (k', x) (by simp)
    have h₂ : Memory.above m k := fun e' he' => h e' (by simp [he'])
    have h₃ := ih h₂
    unfold Memory.write
    split_ifs <;> intro e he
    · exact h e he
    · rcases List.mem_cons.1 he with rfl | he
      · exact hk
      · exact h e he
    · exact h₂ e he
    · rcases List.mem_cons.1 he with rfl | he
      · exact hk
      · exact h₂ e he
    · rcases List.mem_cons.1 he with rfl | he
      · exact h₁
      · exact h₃ e he

/-- Every write keeps the canonical form. -/
theorem Memory.write_wf {m : Memory} {a : Nat} {b : Byte} (ha : a < 2 ^ 32) (h : Memory.wf m = true) :
    Memory.wf (Memory.write m a b) = true := by
  induction m with
  | nil =>
    unfold Memory.write
    split
    · rfl
    · exact Memory.wf_cons.2 ⟨ha, ‹_›, by simp [Memory.above], rfl⟩
  | cons e m ih =>
    obtain ⟨k, x⟩ := e
    obtain ⟨hk, hx, hm, hw⟩ := Memory.wf_cons.1 h
    unfold Memory.write
    split_ifs with h₁ h₂ h₂ h₃
    · exact h
    · refine Memory.wf_cons.2 ⟨ha, h₂, ?_, h⟩
      intro e he
      rcases List.mem_cons.1 he with rfl | he
      · exact h₁
      · exact Nat.lt_trans h₁ (hm e he)
    · exact hw
    · exact Memory.wf_cons.2 ⟨ha, h₃, by subst h₂; exact hm, hw⟩
    · exact Memory.wf_cons.2 ⟨hk, hx, Memory.above_write hm (by omega), ih hw⟩

/-- A byte written is read back. -/
theorem Memory.read_write_same {m : Memory} (a : Nat) (b : Byte) (h : Memory.wf m = true) :
    Memory.read (Memory.write m a b) a = b := by
  induction m with
  | nil => unfold Memory.write; split <;> simp_all [Memory.read]
  | cons e m ih =>
    obtain ⟨k, x⟩ := e
    obtain ⟨-, -, hm, hw⟩ := Memory.wf_cons.1 h
    unfold Memory.write
    split_ifs with h₁ h₂ h₂ h₃
    · rw [h₂]
      refine Memory.read_of_above fun e he => ?_
      rcases List.mem_cons.1 he with rfl | he
      · exact h₁
      · exact Nat.lt_trans h₁ (hm e he)
    · simp [Memory.read]
    · rw [h₃, h₂]; exact Memory.read_of_above hm
    · simp [Memory.read]
    · rw [Memory.read, if_neg h₂, ih hw]

/-- Every other byte reads as before. -/
theorem Memory.read_write_other {m : Memory} {a a' : Nat} (b : Byte) (h : Memory.wf m = true) (ha : a' ≠ a) :
    Memory.read (Memory.write m a b) a' = Memory.read m a' := by
  induction m with
  | nil => unfold Memory.write; split <;> simp [Memory.read, ha]
  | cons e m ih =>
    obtain ⟨k, x⟩ := e
    obtain ⟨-, -, hm, hw⟩ := Memory.wf_cons.1 h
    unfold Memory.write
    split_ifs with h₁ h₂ h₂ h₃
    · rfl
    · simp [Memory.read, ha]
    · simp [Memory.read, ← h₂, ha]
    · simp [Memory.read, ← h₂, ha]
    · simp only [Memory.read, ih hw]

/-- Equal contents are equal lists. -/
theorem Memory.ext_of_read {m m' : Memory} (h : Memory.wf m = true) (h' : Memory.wf m' = true)
    (hr : ∀ a, Memory.read m a = Memory.read m' a) : m = m' := by
  induction m generalizing m' with
  | nil =>
    cases m' with
    | nil => rfl
    | cons e m' =>
      obtain ⟨k, x⟩ := e
      have := hr k
      simp [Memory.read] at this
      exact absurd this.symm (Memory.wf_cons.1 h').2.1
  | cons e m ih =>
    obtain ⟨k, x⟩ := e
    obtain ⟨-, hx, hm, hw⟩ := Memory.wf_cons.1 h
    cases m' with
    | nil =>
      have := hr k
      simp [Memory.read] at this
      exact absurd this hx
    | cons e' m' =>
      obtain ⟨k', x'⟩ := e'
      obtain ⟨-, hx', hm', hw'⟩ := Memory.wf_cons.1 h'
      have hk : k = k' := by
        rcases Nat.lt_trichotomy k k' with hlt | heq | hlt
        · have h₁ := hr k
          have h₂ : Memory.read m' k = Memory.unlisted :=
            Memory.read_of_above (Memory.above_mono hm' (by omega))
          simp only [Memory.read, if_true, if_neg (show k ≠ k' by omega), h₂] at h₁
          exact absurd h₁ hx
        · exact heq
        · have h₁ := hr k'
          have h₂ : Memory.read m k' = Memory.unlisted :=
            Memory.read_of_above (Memory.above_mono hm (by omega))
          simp only [Memory.read, if_true, if_neg (show k' ≠ k by omega), h₂] at h₁
          exact absurd h₁.symm hx'
      subst hk
      have hxx : x = x' := by simpa [Memory.read] using hr k
      subst hxx
      congr 1
      refine ih hw hw' fun a => ?_
      by_cases ha : a = k
      · subst ha
        rw [Memory.read_of_above hm, Memory.read_of_above hm']
      · simpa [Memory.read, ha] using hr a

/-! ### Windows -/

theorem windowAddress_zero (a : Word) : windowAddress a 0 = a := by simp [windowAddress]

theorem windowAddress_inj {a : Word} {i j : Nat} (hi : i < 4) (hj : j < 4)
    (h : windowAddress a i = windowAddress a j) : i = j := by
  unfold windowAddress at h
  have h' := congrArg BitVec.toNat h
  simp only [BitVec.toNat_add, BitVec.toNat_ofNat] at h'
  omega

theorem storeLane_wf {rs : List Region} {m : Memory} {a v : Word} {i : Nat} (h : Memory.wf m = true) :
    Memory.wf (storeLane rs a v m i) = true := by
  unfold storeLane
  split
  · exact h
  · exact Memory.write_wf (windowAddress a i).isLt h

/-- A window write keeps the canonical form, whatever its target is. -/
theorem memWrite_wf {rs : List Region} {m : Memory} {a v : Word} (h : Memory.wf m = true) :
    Memory.wf (memWrite rs m a v) = true :=
  storeLane_wf (storeLane_wf (storeLane_wf (storeLane_wf h)))

theorem read_storeLane_other {rs : List Region} {m : Memory} {a v : Word} {i : Nat} {k : Nat}
    (h : Memory.wf m = true) (hk : k ≠ (windowAddress a i).toNat) :
    Memory.read (storeLane rs a v m i) k = Memory.read m k := by
  unfold storeLane
  split
  · rfl
  · exact Memory.read_write_other _ h hk

theorem read_storeLane_same {rs : List Region} {m : Memory} {a v : Word} {i : Nat}
    (h : Memory.wf m = true) (hp : inRegions rs (windowAddress a i) = false) :
    Memory.read (storeLane rs a v m i) (windowAddress a i).toNat = laneOf v i := by
  rw [storeLane, hp]
  exact Memory.read_write_same _ _ h

/-- A window write leaves every byte outside the window as it was. -/
theorem read_memWrite_outside {rs : List Region} {m : Memory} {a v : Word} {k : Nat} (h : Memory.wf m = true)
    (hk : ∀ i < 4, k ≠ (windowAddress a i).toNat) : Memory.read (memWrite rs m a v) k = Memory.read m k := by
  have h₁ := storeLane_wf (rs := rs) (a := a) (v := v) (i := 0) h
  have h₂ := storeLane_wf (rs := rs) (a := a) (v := v) (i := 1) h₁
  have h₃ := storeLane_wf (rs := rs) (a := a) (v := v) (i := 2) h₂
  rw [memWrite, read_storeLane_other h₃ (hk 3 (by omega)), read_storeLane_other h₂ (hk 2 (by omega)),
    read_storeLane_other h₁ (hk 1 (by omega)), read_storeLane_other h (hk 0 (by omega))]

theorem toNat_windowAddress_ne {a : Word} {i j : Nat} (hi : i < 4) (hj : j < 4) (hij : i ≠ j) :
    (windowAddress a i).toNat ≠ (windowAddress a j).toNat := fun h =>
  hij (windowAddress_inj hi hj (BitVec.eq_of_toNat_eq h))

/-- A window write leaves, at each plain-memory byte of the window, the value's lane. -/
theorem read_memWrite_lane {rs : List Region} {m : Memory} {a v : Word} {i : Nat} (h : Memory.wf m = true)
    (hi : i < 4) (hp : inRegions rs (windowAddress a i) = false) :
    Memory.read (memWrite rs m a v) (windowAddress a i).toNat = laneOf v i := by
  have h₁ := storeLane_wf (rs := rs) (a := a) (v := v) (i := 0) h
  have h₂ := storeLane_wf (rs := rs) (a := a) (v := v) (i := 1) h₁
  have h₃ := storeLane_wf (rs := rs) (a := a) (v := v) (i := 2) h₂
  have ne := fun j (hj : j < 4) (hij : i ≠ j) => toNat_windowAddress_ne (a := a) hi hj hij
  unfold memWrite
  interval_cases i
  · rw [read_storeLane_other h₃ (ne 3 (by omega) (by omega)), read_storeLane_other h₂ (ne 2 (by omega) (by omega)),
      read_storeLane_other h₁ (ne 1 (by omega) (by omega)), read_storeLane_same h hp]
  · rw [read_storeLane_other h₃ (ne 3 (by omega) (by omega)), read_storeLane_other h₂ (ne 2 (by omega) (by omega)),
      read_storeLane_same h₁ hp]
  · rw [read_storeLane_other h₃ (ne 3 (by omega) (by omega)), read_storeLane_same h₂ hp]
  · rw [read_storeLane_same h₃ hp]

/-- A window that touches none of the regions has no byte in one. -/
theorem inRegions_of_not_touches {rs : List Region} {a : Word} {i : Nat} (h : windowTouches rs a = false)
    (hi : i < 4) : inRegions rs (windowAddress a i) = false := by
  simp only [windowTouches, Bool.or_eq_false_iff] at h
  interval_cases i
  · exact h.1.1.1
  · exact h.1.1.2
  · exact h.1.2
  · exact h.2

/-- Lane `i` of a window that was read is the byte at its address. -/
theorem laneOf_memRead (m : Memory) (a : Word) {i : Nat} (hi : i < 4) :
    laneOf (memRead m a) i = m.read (windowAddress a i).toNat := by
  unfold memRead laneOf
  interval_cases i <;> (ext j hj; simp; interval_cases j <;> simp)

/-- Writing back the window just read changes nothing. -/
theorem memWrite_memRead {rs : List Region} {m : Memory} {a : Word} (h : Memory.wf m = true)
    (hp : windowTouches rs a = false) : memWrite rs m a (memRead m a) = m := by
  refine Memory.ext_of_read (memWrite_wf h) h fun k => ?_
  by_cases hk : ∃ i < 4, k = (windowAddress a i).toNat
  · obtain ⟨i, hi, rfl⟩ := hk
    rw [read_memWrite_lane h hi (inRegions_of_not_touches hp hi), laneOf_memRead m a hi]
  · exact read_memWrite_outside h fun i hi he => hk ⟨i, hi, he⟩

/-- A read of a window with no byte in the window written gives what it gave before. -/
theorem memRead_memWrite_disjoint {rs : List Region} {m : Memory} {a b v : Word} (h : Memory.wf m = true)
    (hd : ∀ i < 4, ∀ j < 4, windowAddress a i ≠ windowAddress b j) :
    memRead (memWrite rs m b v) a = memRead m a := by
  have hr : ∀ i < 4, Memory.read (memWrite rs m b v) (windowAddress a i).toNat
      = Memory.read m (windowAddress a i).toNat := fun i hi =>
    read_memWrite_outside h fun j hj he => hd i hi j hj (BitVec.eq_of_toNat_eq he)
  simp only [memRead, hr 0 (by omega), hr 1 (by omega), hr 2 (by omega), hr 3 (by omega)]

end Sys2Proof.Machine
end

