-- ==== Sys2Proof/Laws/State.lean ====
section
/-!
SUPPORT. What each named update of the state leaves in each field: one lemma per field per update, so that no
later proof unfolds a record update.
-/

namespace Sys2Proof.Machine

/-! ### answer -/

@[simp] theorem answer_constructed (s : State) (r : Result) : (answer s r).constructed = s.constructed := rfl

@[simp] theorem answer_isr (s : State) (r : Result) : (answer s r).isr = s.isr := rfl

@[simp] theorem answer_ifcr (s : State) (r : Result) : (answer s r).ifcr = s.ifcr := rfl

@[simp] theorem answer_ch (s : State) (r : Result) : (answer s r).ch = s.ch := rfl

@[simp] theorem answer_channelCount (s : State) (r : Result) : (answer s r).channelCount = s.channelCount := rfl

@[simp] theorem answer_accessor (s : State) (r : Result) : (answer s r).accessor = s.accessor := rfl

@[simp] theorem answer_mem (s : State) (r : Result) : (answer s r).mem = s.mem := rfl

@[simp] theorem answer_draws (s : State) (r : Result) : (answer s r).draws = s.draws := rfl

@[simp] theorem answer_input (s : State) (r : Result) : (answer s r).input = s.input := rfl

@[simp] theorem answer_result (s : State) (r : Result) : (answer s r).result = r := rfl

@[simp] theorem answer_accesses (s : State) (r : Result) : (answer s r).accesses = [] := rfl

/-! ### setChannel -/

@[simp] theorem setChannel_constructed (s : State) (c : Nat) (x : Channel) : (setChannel s c x).constructed = s.constructed := rfl

@[simp] theorem setChannel_isr (s : State) (c : Nat) (x : Channel) : (setChannel s c x).isr = s.isr := rfl

@[simp] theorem setChannel_ifcr (s : State) (c : Nat) (x : Channel) : (setChannel s c x).ifcr = s.ifcr := rfl

@[simp] theorem setChannel_ch (s : State) (c : Nat) (x : Channel) : (setChannel s c x).ch = s.ch.set c x := rfl

@[simp] theorem setChannel_channelCount (s : State) (c : Nat) (x : Channel) : (setChannel s c x).channelCount = s.channelCount := rfl

@[simp] theorem setChannel_accessor (s : State) (c : Nat) (x : Channel) : (setChannel s c x).accessor = s.accessor := rfl

@[simp] theorem setChannel_mem (s : State) (c : Nat) (x : Channel) : (setChannel s c x).mem = s.mem := rfl

@[simp] theorem setChannel_draws (s : State) (c : Nat) (x : Channel) : (setChannel s c x).draws = s.draws := rfl

@[simp] theorem setChannel_input (s : State) (c : Nat) (x : Channel) : (setChannel s c x).input = s.input := rfl

@[simp] theorem setChannel_result (s : State) (c : Nat) (x : Channel) : (setChannel s c x).result = s.result := rfl

@[simp] theorem setChannel_accesses (s : State) (c : Nat) (x : Channel) : (setChannel s c x).accesses = s.accesses := rfl

/-! ### clearRegisters -/

@[simp] theorem clearRegisters_constructed (s : State) : (clearRegisters s).constructed = s.constructed := rfl

@[simp] theorem clearRegisters_isr (s : State) : (clearRegisters s).isr = 0 := rfl

@[simp] theorem clearRegisters_ifcr (s : State) : (clearRegisters s).ifcr = 0 := rfl

@[simp] theorem clearRegisters_ch (s : State) : (clearRegisters s).ch = s.ch.map fun _ => Channel.zero := rfl

@[simp] theorem clearRegisters_channelCount (s : State) : (clearRegisters s).channelCount = s.channelCount := rfl

@[simp] theorem clearRegisters_accessor (s : State) : (clearRegisters s).accessor = s.accessor := rfl

@[simp] theorem clearRegisters_mem (s : State) : (clearRegisters s).mem = s.mem := rfl

@[simp] theorem clearRegisters_draws (s : State) : (clearRegisters s).draws = s.draws := rfl

@[simp] theorem clearRegisters_input (s : State) : (clearRegisters s).input = s.input := rfl

@[simp] theorem clearRegisters_result (s : State) : (clearRegisters s).result = s.result := rfl

@[simp] theorem clearRegisters_accesses (s : State) : (clearRegisters s).accesses = s.accesses := rfl

/-! ### loadRecord -/

@[simp] theorem loadRecord_constructed (s : State) (r : List Word) : (loadRecord s r).constructed = s.constructed := rfl

@[simp] theorem loadRecord_isr (s : State) (r : List Word) : (loadRecord s r).isr = recordField r 0 := rfl

@[simp] theorem loadRecord_ifcr (s : State) (r : List Word) : (loadRecord s r).ifcr = recordField r 1 := rfl

@[simp] theorem loadRecord_ch (s : State) (r : List Word) : (loadRecord s r).ch = (List.range s.ch.length).map (channelOfRecord r) := rfl

@[simp] theorem loadRecord_channelCount (s : State) (r : List Word) : (loadRecord s r).channelCount = s.channelCount := rfl

@[simp] theorem loadRecord_accessor (s : State) (r : List Word) : (loadRecord s r).accessor = s.accessor := rfl

@[simp] theorem loadRecord_mem (s : State) (r : List Word) : (loadRecord s r).mem = s.mem := rfl

@[simp] theorem loadRecord_draws (s : State) (r : List Word) : (loadRecord s r).draws = s.draws := rfl

@[simp] theorem loadRecord_input (s : State) (r : List Word) : (loadRecord s r).input = s.input := rfl

@[simp] theorem loadRecord_result (s : State) (r : List Word) : (loadRecord s r).result = s.result := rfl

@[simp] theorem loadRecord_accesses (s : State) (r : List Word) : (loadRecord s r).accesses = s.accesses := rfl

/-! ### targetStore -/

@[simp] theorem targetStore_constructed (s : State) (a : Word) (b : Byte) : (targetStore s a b).constructed = s.constructed := rfl

@[simp] theorem targetStore_isr (s : State) (a : Word) (b : Byte) : (targetStore s a b).isr = s.isr := rfl

@[simp] theorem targetStore_ifcr (s : State) (a : Word) (b : Byte) : (targetStore s a b).ifcr = s.ifcr := rfl

@[simp] theorem targetStore_ch (s : State) (a : Word) (b : Byte) : (targetStore s a b).ch = s.ch := rfl

@[simp] theorem targetStore_channelCount (s : State) (a : Word) (b : Byte) : (targetStore s a b).channelCount = s.channelCount := rfl

@[simp] theorem targetStore_accessor (s : State) (a : Word) (b : Byte) : (targetStore s a b).accessor = s.accessor := rfl

@[simp] theorem targetStore_mem (s : State) (a : Word) (b : Byte) : (targetStore s a b).mem = s.mem.write a.toNat b := rfl

@[simp] theorem targetStore_draws (s : State) (a : Word) (b : Byte) : (targetStore s a b).draws = s.draws := rfl

@[simp] theorem targetStore_input (s : State) (a : Word) (b : Byte) : (targetStore s a b).input = s.input := rfl

@[simp] theorem targetStore_result (s : State) (a : Word) (b : Byte) : (targetStore s a b).result = s.result := rfl

@[simp] theorem targetStore_accesses (s : State) (a : Word) (b : Byte) : (targetStore s a b).accesses = s.accesses := rfl

/-! ### afterAccess: only the count of free values can move -/

@[simp] theorem afterAccess_constructed (s : State) (a : Word) : (afterAccess s a).constructed = s.constructed := by
  unfold afterAccess; split <;> rfl

@[simp] theorem afterAccess_isr (s : State) (a : Word) : (afterAccess s a).isr = s.isr := by
  unfold afterAccess; split <;> rfl

@[simp] theorem afterAccess_ifcr (s : State) (a : Word) : (afterAccess s a).ifcr = s.ifcr := by
  unfold afterAccess; split <;> rfl

@[simp] theorem afterAccess_ch (s : State) (a : Word) : (afterAccess s a).ch = s.ch := by
  unfold afterAccess; split <;> rfl

@[simp] theorem afterAccess_channelCount (s : State) (a : Word) : (afterAccess s a).channelCount = s.channelCount := by
  unfold afterAccess; split <;> rfl

@[simp] theorem afterAccess_accessor (s : State) (a : Word) : (afterAccess s a).accessor = s.accessor := by
  unfold afterAccess; split <;> rfl

@[simp] theorem afterAccess_mem (s : State) (a : Word) : (afterAccess s a).mem = s.mem := by
  unfold afterAccess; split <;> rfl

@[simp] theorem afterAccess_draws (s : State) (a : Word) : (afterAccess s a).draws =
    if windowTouches s.accessor.nonMemory a then s.draws + 1 else s.draws := by
  unfold afterAccess; split <;> rfl

@[simp] theorem afterAccess_input (s : State) (a : Word) : (afterAccess s a).input = s.input := by
  unfold afterAccess; split <;> rfl

@[simp] theorem afterAccess_result (s : State) (a : Word) : (afterAccess s a).result = s.result := by
  unfold afterAccess; split <;> rfl

@[simp] theorem afterAccess_accesses (s : State) (a : Word) : (afterAccess s a).accesses = s.accesses := by
  unfold afterAccess; split <;> rfl

/-! ### busWrite -/

@[simp] theorem busWrite_constructed (s : State) (a v : Word) : (busWrite s a v).constructed = s.constructed :=
  afterAccess_constructed s a

@[simp] theorem busWrite_isr (s : State) (a v : Word) : (busWrite s a v).isr = s.isr :=
  afterAccess_isr s a

@[simp] theorem busWrite_ifcr (s : State) (a v : Word) : (busWrite s a v).ifcr = s.ifcr :=
  afterAccess_ifcr s a

@[simp] theorem busWrite_ch (s : State) (a v : Word) : (busWrite s a v).ch = s.ch :=
  afterAccess_ch s a

@[simp] theorem busWrite_channelCount (s : State) (a v : Word) : (busWrite s a v).channelCount = s.channelCount :=
  afterAccess_channelCount s a

@[simp] theorem busWrite_accessor (s : State) (a v : Word) : (busWrite s a v).accessor = s.accessor :=
  afterAccess_accessor s a

@[simp] theorem busWrite_mem (s : State) (a v : Word) : (busWrite s a v).mem =
    memWrite s.accessor.nonMemory s.mem a
      (if windowTouches s.accessor.nonMemory a then Config.nonMemoryWord s.draws else v) := rfl

@[simp] theorem busWrite_draws (s : State) (a v : Word) : (busWrite s a v).draws =
    if windowTouches s.accessor.nonMemory a then s.draws + 1 else s.draws :=
  afterAccess_draws s a

@[simp] theorem busWrite_input (s : State) (a v : Word) : (busWrite s a v).input = s.input :=
  afterAccess_input s a

@[simp] theorem busWrite_result (s : State) (a v : Word) : (busWrite s a v).result = s.result :=
  afterAccess_result s a

@[simp] theorem busWrite_accesses (s : State) (a v : Word) : (busWrite s a v).accesses = s.accesses :=
  afterAccess_accesses s a

/-! ### moveElement -/

@[simp] theorem moveElement_constructed (mv : Move) (s : State) : (moveElement mv s).constructed = s.constructed := by
  simp [moveElement]

@[simp] theorem moveElement_isr (mv : Move) (s : State) : (moveElement mv s).isr = s.isr := by
  simp [moveElement]

@[simp] theorem moveElement_ifcr (mv : Move) (s : State) : (moveElement mv s).ifcr = s.ifcr := by
  simp [moveElement]

@[simp] theorem moveElement_ch (mv : Move) (s : State) : (moveElement mv s).ch = s.ch := by
  simp [moveElement]

@[simp] theorem moveElement_channelCount (mv : Move) (s : State) : (moveElement mv s).channelCount = s.channelCount := by
  simp [moveElement]

@[simp] theorem moveElement_accessor (mv : Move) (s : State) : (moveElement mv s).accessor = s.accessor := by
  simp [moveElement]

@[simp] theorem moveElement_input (mv : Move) (s : State) : (moveElement mv s).input = s.input := by
  simp [moveElement]

@[simp] theorem moveElement_result (mv : Move) (s : State) : (moveElement mv s).result = s.result := by
  simp [moveElement]

end Sys2Proof.Machine
end

