-- ==== Sys2Proof/Laws/Ops.lean ====
section
/-!
SUPPORT. One lemma per shared operation that says once everything it can do; the proofs cite these and do not
unfold the operations.
-/

namespace Sys2Proof.Machine

/-! ### Access to one slot -/

theorem channelAt_of_getElem? {s : State} {c : Nat} {x : Channel} (h : s.ch[c]? = some x) :
    channelAt s c = x := by simp [channelAt, List.getD, h]

theorem channelAt_eq_zero {s : State} {c : Nat} (h : s.ch.length ≤ c) : channelAt s c = Channel.zero := by
  simp [channelAt, List.getD, List.getElem?_eq_none h]

/-- An active channel of a block that keeps the invariant has a slot. -/
theorem slot_of_active {s : State} {c : Nat} (hi : s.Inv) (hc : c < s.channelCount) :
    ∃ x, s.ch[c]? = some x :=
  ⟨s.ch[c]'(Nat.lt_of_lt_of_le hc hi.2.1), List.getElem?_eq_getElem _⟩

theorem channelAt_setChannel_ne {s : State} {c d : Nat} {x : Channel} (h : d ≠ c) :
    channelAt (setChannel s c x) d = channelAt s d := by
  simp [channelAt, List.getD, Ne.symm h]

theorem rejects_zero : rejects Channel.zero = true := by decide

/-! ### moveElement -/

/-- The three accesses of a moved element, with the values read and written. -/
theorem moveElement_accesses (mv : Move) (s : State) : (moveElement mv s).accesses =
    [.read mv.se (busValue s mv.se), .read mv.de (busValue (afterAccess s mv.se) mv.de),
     .write mv.de (merge (busValue (afterAccess s mv.se) mv.de) mv.dsize (busValue s mv.se) mv.ssize)] := rfl

theorem moveElement_mem_wf {mv : Move} {s : State} (h : Memory.wf s.mem = true) :
    Memory.wf (moveElement mv s).mem = true := by
  simp only [moveElement, busWrite_mem, afterAccess_mem]
  exact memWrite_wf h

/-- On plain memory the three accesses read memory as it was and write the merged window. -/
theorem moveElement_mem_plain {mv : Move} {s : State}
    (hs : windowTouches s.accessor.nonMemory mv.se = false)
    (hd : windowTouches s.accessor.nonMemory mv.de = false) :
    (moveElement mv s).mem = memWrite s.accessor.nonMemory s.mem mv.de
      (merge (memRead s.mem mv.de) mv.dsize (memRead s.mem mv.se) mv.ssize) := by
  simp [moveElement, busValue, hs, hd]

theorem moveElement_draws_plain {mv : Move} {s : State}
    (hs : windowTouches s.accessor.nonMemory mv.se = false)
    (hd : windowTouches s.accessor.nonMemory mv.de = false) : (moveElement mv s).draws = s.draws := by
  simp [moveElement, hs, hd]

/-- No byte outside the destination window changes, whatever the target is. -/
theorem read_moveElement_outside {mv : Move} {s : State} {k : Nat} (h : Memory.wf s.mem = true)
    (hk : ∀ i < 4, k ≠ (windowAddress mv.de i).toNat) :
    Memory.read (moveElement mv s).mem k = Memory.read s.mem k := by
  simp only [moveElement, busWrite_mem, afterAccess_mem]
  exact read_memWrite_outside h hk

/-! ### transfer and REQ -/

/-- The outcome of a transfer that passes every test. -/
def transferred (c : Nat) (x : Channel) (mv : Move) (s : State) : State :=
  { setChannel (moveElement mv s) c (afterElement x) with result := .none }

/-- Everything a transfer can do when it gives a next state. -/
theorem transfer_next {c : Nat} {s t : State} (h : transfer c s = .next t) :
    (rejects (channelAt s c) = true ∧ t = answer s .none) ∨
    (rejects (channelAt s c) = false ∧ ∃ psize msize,
      sizeOfCode (ccrPsize (channelAt s c).ccr) = some psize ∧
      sizeOfCode (ccrMsize (channelAt s c).ccr) = some msize ∧
      windowTouches s.accessor.selfWindow (moveOf (channelAt s c) psize msize).se = false ∧
      windowTouches s.accessor.selfWindow (moveOf (channelAt s c) psize msize).de = false ∧
      t = transferred c (channelAt s c) (moveOf (channelAt s c) psize msize) s) := by
  unfold transfer at h
  simp only at h
  cases hr : rejects (channelAt s c)
  · rw [hr, if_neg (by simp)] at h
    refine .inr ⟨rfl, ?_⟩
    split at h
    · rename_i psize msize hp hm
      split at h
      · cases h
      · rename_i hw
        rw [Bool.or_eq_true, not_or, Bool.not_eq_true, Bool.not_eq_true] at hw
        exact ⟨psize, msize, hp, hm, hw.1, hw.2, by cases h; rfl⟩
    · cases h
  · rw [hr, if_pos rfl] at h
    exact .inl ⟨rfl, by cases h; rfl⟩

/-- A transfer stops only by a refusal, of one of two reasons, and only when it is not rejected. -/
theorem transfer_refused {c : Nat} {s : State} {r : Refusal} (h : transfer c s = .refused r) :
    rejects (channelAt s c) = false ∧
    ((r = .reservedSize ∧ (sizeOfCode (ccrPsize (channelAt s c).ccr) = none ∨
        sizeOfCode (ccrMsize (channelAt s c).ccr) = none)) ∨
     (r = .selfAccess ∧ ∃ psize msize,
        sizeOfCode (ccrPsize (channelAt s c).ccr) = some psize ∧
        sizeOfCode (ccrMsize (channelAt s c).ccr) = some msize ∧
        (windowTouches s.accessor.selfWindow (moveOf (channelAt s c) psize msize).se = true ∨
         windowTouches s.accessor.selfWindow (moveOf (channelAt s c) psize msize).de = true))) := by
  unfold transfer at h
  simp only at h
  cases hr : rejects (channelAt s c)
  · rw [hr, if_neg (by simp)] at h
    refine ⟨rfl, ?_⟩
    split at h
    · rename_i psize msize hp hm
      split at h
      · rename_i hw
        rw [Bool.or_eq_true] at hw
        exact .inr ⟨by cases h; rfl, psize, msize, hp, hm, hw⟩
      · cases h
    · rename_i hn
      refine .inl ⟨by cases h; rfl, ?_⟩
      cases hp : sizeOfCode (ccrPsize (channelAt s c).ccr) with
      | none => exact .inl rfl
      | some p =>
        cases hm : sizeOfCode (ccrMsize (channelAt s c).ccr) with
        | none => exact .inr rfl
        | some m => exact absurd hm (hn p m hp)
  · rw [hr, if_pos rfl] at h
    cases h

theorem transfer_not_fault {c : Nat} {s : State} {f : Fault} : transfer c s ≠ .fault f := by
  unfold transfer
  simp only
  intro h
  split at h
  · cases h
  · split at h
    · split at h <;> cases h
    · cases h

/-- A rejected transfer is a no-op. -/
theorem transfer_of_rejects {c : Nat} {s : State} (h : rejects (channelAt s c) = true) :
    transfer c s = .next (answer s .none) := by simp [transfer, h, done]

/-- A transfer that passes every test moves its element. -/
theorem transfer_of_accepts {c : Nat} {s : State} {psize msize : ElemSize}
    (h : rejects (channelAt s c) = false)
    (hp : sizeOfCode (ccrPsize (channelAt s c).ccr) = some psize)
    (hm : sizeOfCode (ccrMsize (channelAt s c).ccr) = some msize)
    (hs : windowTouches s.accessor.selfWindow (moveOf (channelAt s c) psize msize).se = false)
    (hd : windowTouches s.accessor.selfWindow (moveOf (channelAt s c) psize msize).de = false) :
    transfer c s = .next (transferred c (channelAt s c) (moveOf (channelAt s c) psize msize) s) := by
  simp [transfer, h, hp, hm, hs, hd, transferred]

theorem execReq_invalid {channel level : Int} {s : State}
    (h : channel < 0 ∨ (s.channelCount : Int) ≤ channel) : execReq channel level s = .next (answer s .none) := by
  simp [execReq, h, done]

theorem execReq_valid {c : Nat} {level : Int} {s : State} (h : c < s.channelCount) :
    execReq (c : Int) level s = transfer c s := by
  unfold execReq
  rw [if_neg (by omega), Int.toNat_natCast]

/-- Everything REQ can do when it gives a next state: nothing, or a transfer on an active channel. -/
theorem execReq_next {channel level : Int} {s t : State} (h : execReq channel level s = .next t) :
    t = answer s .none ∨
    ∃ (c : Nat) (psize msize : ElemSize), channel = (c : Int) ∧ c < s.channelCount ∧
      rejects (channelAt s c) = false ∧
      sizeOfCode (ccrPsize (channelAt s c).ccr) = some psize ∧
      sizeOfCode (ccrMsize (channelAt s c).ccr) = some msize ∧
      windowTouches s.accessor.selfWindow (moveOf (channelAt s c) psize msize).se = false ∧
      windowTouches s.accessor.selfWindow (moveOf (channelAt s c) psize msize).de = false ∧
      t = transferred c (channelAt s c) (moveOf (channelAt s c) psize msize) s := by
  unfold execReq at h
  split at h
  · exact .inl (by cases h; rfl)
  · rename_i hv
    rcases transfer_next h with ⟨-, rfl⟩ | ⟨hr, p, m, hp, hm, hs, hd, rfl⟩
    · exact .inl rfl
    · exact .inr ⟨channel.toNat, p, m, by omega, by omega, hr, hp, hm, hs, hd, rfl⟩

/-! ### CFG -/

/-- Everything a CFG can do when it gives a next state: no block existed, and one is made. -/
theorem exec_cfg_next {s t : State} {n : Nat} {accessor : Option Accessor} (h : exec (.cfg n accessor) s = .next t) :
    s.constructed = false ∧ ∃ a, accessor = some a ∧ 1 ≤ n ∧ n ≤ s.ch.length
      ∧ t = answer (clearRegisters { s with constructed := true, channelCount := n, accessor := a }) .none := by
  simp only [exec, execCfg, done] at h
  split at h
  · cases h
  · rename_i hc
    refine ⟨by simpa using hc, ?_⟩
    split at h
    · cases h
    · split at h
      · cases h
      · exact ⟨_, rfl, by omega, by omega, by cases h; rfl⟩

/-- A second construction is refused, whatever its operands. -/
theorem exec_cfg_of_constructed {s : State} {n : Nat} {accessor : Option Accessor} (h : s.constructed = true) :
    exec (.cfg n accessor) s = .refused .alreadyConstructed := if_pos h

/-! ### Shape of a next state, for every operation that is no request -/

/-- No operation but a request touches the target space, and no operation at all touches what is to come. -/
theorem exec_outside {i : Instr} {s t : State} (hr : isRequest i = false) (h : exec i s = .next t) :
    t.accesses = [] ∧ t.mem = s.mem ∧ t.draws = s.draws ∧ t.input = s.input := by
  cases i <;> first
    | (cases hr; done)
    | (simp only [exec, execRdIsr, execWrIsr, execRdIfcr, execWrIfcr, execRdCcr, execWrCcr, execRdCndtr,
        execWrCndtr, execRdCpar, execWrCpar, execRdCmar, execWrCmar, execRdInactive, execWrInactive,
        execRdUnknown, execWrUnknown, execRst, execSnap, readReturns, readChannel, writeChannel, done,
        Host.Outcome.next.injEq] at h
       subst h
       (try split) <;> simp)
    | (obtain ⟨-, a, -, -, -, rfl⟩ := exec_cfg_next h
       simp)
    | (simp only [exec, execLoad, done] at h
       split at h
       · cases h
       · split at h
         · cases h
         · cases h; simp)

/-! ### The register file on an active channel -/

theorem readChannel_active {s : State} {c : Nat} {x : Channel} (hc : c < s.channelCount)
    (hx : s.ch[c]? = some x) (field : Channel → Word) :
    readChannel s c field = .next (answer s (.word (field x))) := by
  simp [readChannel, hc, channelAt_of_getElem? hx, readReturns]

theorem writeChannel_active {s : State} {c : Nat} {x : Channel} (hc : c < s.channelCount)
    (hx : s.ch[c]? = some x) (update : Channel → Channel) :
    writeChannel s c update = .next (answer (setChannel s c (update x)) .none) := by
  simp [writeChannel, hc, channelAt_of_getElem? hx, done]

/-- The list of slots after a channel-register write: one slot updated, or none. -/
theorem writeChannel_next {s t : State} {c : Nat} {update : Channel → Channel}
    (h : writeChannel s c update = .next t) :
    (c < s.channelCount ∧ t = answer (setChannel s c (update (channelAt s c))) .none)
    ∨ (s.channelCount ≤ c ∧ t = answer s .none) := by
  unfold writeChannel at h
  split at h
  · exact .inl ⟨‹_›, by cases h; rfl⟩
  · exact .inr ⟨by omega, by cases h; rfl⟩

/-! ### REQ, in the words of `exec` -/

/-- A slot whose request is not rejected exists. -/
theorem slot_of_accepted {s : State} {c : Nat} (h : rejects (channelAt s c) = false) :
    s.ch[c]? = some (channelAt s c) := by
  by_cases hl : c < s.ch.length
  · simp [channelAt, List.getD, hl]
  · rw [channelAt_eq_zero (by omega), rejects_zero] at h
    cases h

theorem rejects_eq_true {x : Channel} : rejects x = true ↔ ccrEn x.ccr = false ∨ x.cndtr = 0 := by
  simp [rejects]

theorem rejects_eq_false {x : Channel} : rejects x = false ↔ ccrEn x.ccr = true ∧ x.cndtr ≠ 0 := by
  simp [rejects]

/-- A request on an active channel's slot that is rejected changes nothing. -/
theorem exec_req_of_rejects {s : State} {c : Nat} {x : Channel} (level : Int) (hc : c < s.channelCount)
    (hx : s.ch[c]? = some x) (hr : rejects x = true) : exec (.req (c : Int) level) s = .next (answer s .none) :=
  (execReq_valid (level := level) hc).trans (transfer_of_rejects (by rw [channelAt_of_getElem? hx]; exact hr))

/-- A request on an active channel's slot that passes every test moves its element. -/
theorem exec_req_of_accepts {s : State} {c : Nat} {x : Channel} {psize msize : ElemSize} (level : Int)
    (hc : c < s.channelCount) (hx : s.ch[c]? = some x) (hr : rejects x = false)
    (hp : sizeOfCode (ccrPsize x.ccr) = some psize) (hm : sizeOfCode (ccrMsize x.ccr) = some msize)
    (hs : windowTouches s.accessor.selfWindow (moveOf x psize msize).se = false)
    (hd : windowTouches s.accessor.selfWindow (moveOf x psize msize).de = false) :
    exec (.req (c : Int) level) s = .next (transferred c x (moveOf x psize msize) s) := by
  have hcx := channelAt_of_getElem? hx
  rw [← hcx] at hr hp hm hs hd ⊢
  exact (execReq_valid (level := level) hc).trans (transfer_of_accepts hr hp hm hs hd)

/-- Every outcome of a request that gives a next state, with the reason when it is a no-op. -/
theorem exec_req_next {c : Nat} {level : Int} {s t : State} (h : exec (.req (c : Int) level) s = .next t) :
    (t = answer s .none ∧ (s.channelCount ≤ c ∨ rejects (channelAt s c) = true)) ∨
    ∃ psize msize, c < s.channelCount ∧ rejects (channelAt s c) = false ∧
      sizeOfCode (ccrPsize (channelAt s c).ccr) = some psize ∧
      sizeOfCode (ccrMsize (channelAt s c).ccr) = some msize ∧
      windowTouches s.accessor.selfWindow (moveOf (channelAt s c) psize msize).se = false ∧
      windowTouches s.accessor.selfWindow (moveOf (channelAt s c) psize msize).de = false ∧
      t = transferred c (channelAt s c) (moveOf (channelAt s c) psize msize) s := by
  by_cases hc : c < s.channelCount
  · rcases transfer_next ((execReq_valid (level := level) hc).symm.trans h) with ⟨hr, rfl⟩ | ⟨hr, p, m, hp, hm, hs, hd, rfl⟩
    · exact .inl ⟨rfl, .inr hr⟩
    · exact .inr ⟨p, m, hc, hr, hp, hm, hs, hd, rfl⟩
  · refine .inl ⟨?_, .inl (by omega)⟩
    have h' := (execReq_invalid (level := level) (s := s) (.inr (by omega))).symm.trans h
    cases h'
    rfl

/-- What a request leaves alone, whether or not it moves an element. -/
theorem exec_req_frame {s t : State} {channel level : Int} (h : exec (.req channel level) s = .next t) :
    t.constructed = s.constructed ∧ t.isr = s.isr ∧ t.ifcr = s.ifcr ∧ t.channelCount = s.channelCount
    ∧ t.accessor = s.accessor ∧ t.input = s.input ∧ t.ch.length = s.ch.length := by
  rcases execReq_next (level := level) h with rfl | ⟨_, _, _, _, _, _, _, _, _, _, rfl⟩ <;> simp [transferred]

/-- Slot `c` after a request on any input: as it was, or stepped by one element. -/
theorem exec_req_slot {s t : State} {channel level : Int} {c : Nat} {x : Channel}
    (h : exec (.req channel level) s = .next t) (hx : s.ch[c]? = some x) :
    t.ch[c]? = some x ∨ (channel = (c : Int) ∧ t.ch[c]? = some (afterElement x)) := by
  rcases execReq_next (level := level) h with rfl | ⟨c', _, _, hc', _, _, _, _, _, _, rfl⟩
  · exact .inl (by simpa)
  · by_cases hcc : c' = c
    · subst hcc
      have hl := (List.getElem?_eq_some_iff.1 hx).1
      exact .inr ⟨hc', by simp [transferred, channelAt_of_getElem? hx, hl]⟩
    · exact .inl (by simp [transferred, hcc, hx])

/-- Moving an element depends on the accessor, the plain memory and the count of free values alone. -/
theorem moveElement_congr {s s' : State} (ha : s'.accessor = s.accessor) (hm : s'.mem = s.mem)
    (hd : s'.draws = s.draws) (mv : Move) :
    (moveElement mv s').mem = (moveElement mv s).mem ∧ (moveElement mv s').draws = (moveElement mv s).draws
    ∧ (moveElement mv s').accesses = (moveElement mv s).accesses := by
  have hv : ∀ (u u' : State) (a : Word), u'.accessor = u.accessor → u'.mem = u.mem → u'.draws = u.draws →
      busValue u' a = busValue u a := by
    intro u u' a h₁ h₂ h₃
    simp [busValue, h₁, h₂, h₃]
  have h₁ := hv s s' mv.se ha hm hd
  have h₂ := hv (afterAccess s mv.se) (afterAccess s' mv.se) mv.de (by simp [ha]) (by simp [hm]) (by simp [ha, hd])
  refine ⟨?_, ?_, ?_⟩ <;> simp [moveElement, h₁, h₂, ha, hm, hd]

/-! ### LOAD, reset and snapshot -/

theorem exec_load_next {s t : State} {r : List Word} (h : exec (.load r) s = .next t) :
    r.length = 3 + 5 * s.ch.length ∧ recordField r 2 = countWord s ∧ t = answer (loadRecord s r) .none := by
  simp only [exec, execLoad, done] at h
  split at h
  · cases h
  · split at h
    · cases h
    · rename_i h₁ h₂
      exact ⟨not_not.1 h₁, not_not.1 h₂, by cases h; rfl⟩

/-- Reset leaves every slot zero. -/
theorem clearRegisters_slots (s : State) :
    (clearRegisters s).ch = List.replicate s.ch.length Channel.zero := by
  simp only [clearRegisters]
  induction s.ch with
  | nil => rfl
  | cons x l ih => simp [List.replicate_succ, ih]

theorem snapshotRecord_length (s : State) : (snapshotRecord s).length = 3 + 5 * s.ch.length := by
  have h : (s.ch.flatMap channelRecord).length = 5 * s.ch.length := by
    induction s.ch with
    | nil => rfl
    | cons x l ih =>
      rw [List.flatMap_cons, List.length_append, ih]
      simp [channelRecord]
      omega
  simp only [snapshotRecord, List.length_cons, h]
  omega

/-- Field `k` of slot `c` in the snapshot record. -/
theorem snapshotRecord_slot {s : State} {c k : Nat} {x : Channel} (h : s.ch[c]? = some x) (hk : k < 5) :
    (snapshotRecord s)[3 + 5 * c + k]? = (channelRecord x)[k]? := by
  have aux : ∀ (l : List Channel) (c : Nat), l[c]? = some x →
      (l.flatMap channelRecord)[5 * c + k]? = (channelRecord x)[k]? := by
    intro l
    induction l with
    | nil => intro c h; simp at h
    | cons y l ih =>
      intro c h
      rw [List.flatMap_cons]
      cases c with
      | zero =>
        obtain rfl : y = x := by simpa using h
        rw [List.getElem?_append_left (by simp [channelRecord]; omega)]
        simp
      | succ c =>
        rw [List.getElem?_append_right (by simp [channelRecord]; omega), ← ih c (by simpa using h)]
        congr 1
        simp [channelRecord]
        omega
  rw [snapshotRecord, show 3 + 5 * c + k = (5 * c + k) + 1 + 1 + 1 by omega, ← aux s.ch c h]
  simp

/-! ### Every operation -/

/-- MAX_CHANNELS, the number of slots, never changes. -/
theorem exec_length {i : Instr} {s t : State} (h : exec i s = .next t) : t.ch.length = s.ch.length := by
  cases i
  case req channel level => exact (exec_req_frame h).2.2.2.2.2.2
  case load r => simp [(exec_load_next h).2.2]
  case cfg n accessor => obtain ⟨-, a, -, -, -, rfl⟩ := exec_cfg_next h; simp
  all_goals
    simp only [exec, execRdIsr, execWrIsr, execRdIfcr, execWrIfcr, execRdCcr, execWrCcr, execRdCndtr,
      execWrCndtr, execRdCpar, execWrCpar, execRdCmar, execWrCmar, execRdInactive, execWrInactive,
      execRdUnknown, execWrUnknown, execRst, execSnap, readReturns, readChannel, writeChannel, done,
      Host.Outcome.next.injEq] at h
    subst h
    (try split) <;> simp

/-- No operation but a construction touches the existence of the block, its channel_count or its accessor. -/
theorem exec_binding {i : Instr} {s t : State} (hi : isConstruction i = false) (h : exec i s = .next t) :
    t.constructed = s.constructed ∧ t.channelCount = s.channelCount ∧ t.accessor = s.accessor := by
  cases i
  case cfg n accessor => cases hi
  case req channel level =>
    obtain ⟨h₁, -, -, h₂, h₃, -⟩ := exec_req_frame h
    exact ⟨h₁, h₂, h₃⟩
  case load r => simp [(exec_load_next h).2.2]
  all_goals
    simp only [exec, execRdIsr, execWrIsr, execRdIfcr, execWrIfcr, execRdCcr, execWrCcr, execRdCndtr,
      execWrCndtr, execRdCpar, execWrCpar, execRdCmar, execWrCmar, execRdInactive, execWrInactive,
      execRdUnknown, execWrUnknown, execRst, execSnap, readReturns, readChannel, writeChannel, done,
      Host.Outcome.next.injEq] at h
    subst h
    (try split) <;> simp

/-- Every operation keeps the canonical form of memory. -/
theorem exec_mem_wf {i : Instr} {s t : State} (h : exec i s = .next t) (hm : Memory.wf s.mem = true) :
    Memory.wf t.mem = true := by
  cases hr : isRequest i
  · rw [(exec_outside hr h).2.1]
    exact hm
  · cases i <;> cases hr
    rename_i channel level
    rcases execReq_next (level := level) h with rfl | ⟨_, _, _, _, _, _, _, _, _, _, rfl⟩
    · exact hm
    · exact moveElement_mem_wf hm

/-- Another agent's store keeps the canonical form of memory. -/
theorem targetStore_mem_wf {s : State} {a : Word} {b : Byte} (h : Memory.wf s.mem = true) :
    Memory.wf (targetStore s a b).mem = true := Memory.write_wf a.isLt h

/-- The only operation that ends in a fault is a construction. -/
theorem exec_fault {i : Instr} {s : State} {f : Fault} (h : exec i s = .fault f) :
    ∃ n accessor, i = .cfg n accessor ∧ execCfg n accessor s = .fault f := by
  cases i with
  | cfg n accessor => exact ⟨n, accessor, rfl, h⟩
  | req channel level =>
    simp only [exec, execReq] at h
    split at h
    · cases h
    · exact absurd h transfer_not_fault
  | load r =>
    simp only [exec, execLoad] at h
    split at h
    · cases h
    · split at h <;> cases h
  | _ => cases h

/-- Everything a step can do when it gives a next state. -/
theorem step_next {s t : State} (h : step s = .next t) :
    (s.input = [] ∧ t = s)
    ∨ (∃ a b rest, s.input = .targetStore a b :: rest ∧ t = targetStore { s with input := rest } a b)
    ∨ (∃ o rest i, s.input = .operation o :: rest ∧ decode s.channelCount o = .ok i
        ∧ admits s i = true ∧ exec i { s with input := rest } = .next t) := by
  unfold step takeEvent at h
  cases hin : s.input with
  | nil => rw [hin] at h; cases h; exact .inl ⟨rfl, rfl⟩
  | cons e rest =>
    rw [hin] at h
    cases e with
    | targetStore a b => cases h; exact .inr (.inl ⟨a, b, rest, rfl, rfl⟩)
    | operation o =>
      simp only at h
      split at h
      · rename_i i hd
        split at h
        · exact .inr (.inr ⟨o, rest, i, rfl, hd, ‹_›, h⟩)
        · cases h
      · cases h

end Sys2Proof.Machine
end

