-- ==== Sys2Proof/Laws/PerInstr.lean ====
section
/-!
SUPPORT. Statements made per operation, one lemma per constructor of `Instr`.
-/

namespace Sys2Proof.Laws.TableFormat

/-- The column "format" of spec/opcode_table.json for an operation as the interfaces carry it
(30_encoding.md R80); an MMIO access counts only with size 4 (20_memory.md R61). -/
def formatOf : Operation → Option String
  | .mmioRead _ size => if size = 4 then some "mmio_read" else none
  | .mmioWrite _ size _ => if size = 4 then some "mmio_write" else none
  | .request _ _ => some "request"
  | .reset => some "reset"
  | .construct _ _ => some "construct"
  | .snapshot => some "snapshot"
  | .restore _ => some "restore"

/-- The column "format" of an instruction's row, copied from the table. -/
def tableFormat : Instr → String
  | .rdIsr | .rdIfcr | .rdCcr _ | .rdCndtr _ | .rdCpar _ | .rdCmar _ | .rdInactive _ | .rdUnknown _ => "mmio_read"
  | .wrIsr _ | .wrIfcr _ | .wrCcr _ _ | .wrCndtr _ _ | .wrCpar _ _ | .wrCmar _ _ | .wrInactive _ _
  | .wrUnknown _ _ => "mmio_write"
  | .req _ _ => "request"
  | .rst => "reset"
  | .cfg _ _ => "construct"
  | .snap => "snapshot"
  | .load _ => "restore"

/-- The encoding of an instruction has the format of its row of the opcode table. -/
def Statement (i : Instr) : Prop := formatOf (encode i) = some (tableFormat i)

theorem rdIsr : Statement .rdIsr := rfl

theorem wrIsr (v : Word) : Statement (.wrIsr v) := rfl

theorem rdIfcr : Statement .rdIfcr := rfl

theorem wrIfcr (v : Word) : Statement (.wrIfcr v) := rfl

theorem rdCcr (c : Nat) : Statement (.rdCcr c) := rfl

theorem wrCcr (c : Nat) (v : Word) : Statement (.wrCcr c v) := rfl

theorem rdCndtr (c : Nat) : Statement (.rdCndtr c) := rfl

theorem wrCndtr (c : Nat) (v : Word) : Statement (.wrCndtr c v) := rfl

theorem rdCpar (c : Nat) : Statement (.rdCpar c) := rfl

theorem wrCpar (c : Nat) (v : Word) : Statement (.wrCpar c v) := rfl

theorem rdCmar (c : Nat) : Statement (.rdCmar c) := rfl

theorem wrCmar (c : Nat) (v : Word) : Statement (.wrCmar c v) := rfl

theorem rdInactive (offset : Word) : Statement (.rdInactive offset) := rfl

theorem wrInactive (offset v : Word) : Statement (.wrInactive offset v) := rfl

theorem rdUnknown (offset : Word) : Statement (.rdUnknown offset) := rfl

theorem wrUnknown (offset v : Word) : Statement (.wrUnknown offset v) := rfl

theorem req (channel level : Int) : Statement (.req channel level) := rfl

theorem rst : Statement .rst := rfl

theorem cfg (n : Nat) (accessor : Option Accessor) : Statement (.cfg n accessor) := rfl

theorem snap : Statement .snap := rfl

theorem load (record : List Word) : Statement (.load record) := rfl

end Sys2Proof.Laws.TableFormat
end

