-- ==== Sys2Proof/Tests/Slice0.lean ====
section
/-!
SUPPORT. Tests. The expected values come from spec/95_test_vectors.md (the id stands in each comment), from the
register map of 30_encoding.md or from its formats. The last part shows, for each statement with hypotheses, a
state and operands that meet them.
-/

namespace Sys2Proof.Tests

open Sys2Proof.Machine

/-! ### Helpers -/

/-- The next state of an outcome, for an outcome that is one. -/
def nextState (o : Host.Outcome State Fault Refusal) : State :=
  match o with
  | .next s => s
  | _ => State.reset

/-- The refusal of an outcome that is one. -/
def refusal? (o : Host.Outcome State Fault Refusal) : Option Refusal :=
  match o with
  | .refused r => some r
  | _ => none

/-- The fault of an outcome that is one. -/
def fault? (o : Host.Outcome State Fault Refusal) : Option Fault :=
  match o with
  | .fault f => some f
  | _ => none

/-- A slot whose count was written. -/
def slot (ccr cndtr cpar cmar : Word) : Channel := { ccr, cndtr, reloadCndtr := cndtr, cpar, cmar }

/-- A block of 7 slots, `n` of them active, with slot 0 given and this memory. -/
def block (n : Nat) (x : Channel) (m : Memory) : State :=
  { State.reset with channelCount := n, ch := x :: List.replicate 6 Channel.zero, mem := m }

/-- The start state of 95_test_vectors.md section 2.3. -/
def router : State :=
  block 2 (slot 0x91 4 0x1000 0x2000) [(0x2000, 0x11), (0x2001, 0x22), (0x2002, 0x33), (0x2003, 0x44)]

/-- The slot of channel 0 of `router`. -/
def routerSlot : Channel := slot 0x91 4 0x1000 0x2000

/-! ### WellFormed refuses an ill-formed term of each kind -/

theorem test_wellformed_index_not_active :
    (Instr.rdCcr 7).wellFormed 7 = false ∧ (Instr.wrCcr 2 0).wellFormed 2 = false
    ∧ (Instr.rdCndtr 7).wellFormed 7 = false ∧ (Instr.wrCndtr 2 0).wellFormed 2 = false
    ∧ (Instr.rdCpar 7).wellFormed 7 = false ∧ (Instr.wrCpar 2 0).wellFormed 2 = false
    ∧ (Instr.rdCmar 7).wellFormed 7 = false ∧ (Instr.wrCmar 2 0).wellFormed 2 = false
    ∧ (Instr.wrCmar 1 0).wellFormed 2 = true := by decide

/-- An active index whose register has no u32 offset: 8 + 20·214748364 + 8 = 2^32. -/
theorem test_wellformed_offset_not_u32 :
    (Instr.rdCpar 214748364).wellFormed 214748365 = false
    ∧ (Instr.wrCmar 214748364 0).wellFormed 214748365 = false
    ∧ (Instr.rdCcr 214748365).wellFormed 214748366 = false
    ∧ (Instr.wrCndtr 214748364 0).wellFormed 214748365 = true := by decide

theorem test_wellformed_inactive_offset :
    (Instr.rdInactive 0x04#32).wellFormed 2 = false ∧ (Instr.wrInactive 0x1C#32 0).wellFormed 2 = false
    ∧ (Instr.rdInactive 0x30#32).wellFormed 2 = true := by decide

theorem test_wellformed_unknown_offset :
    (Instr.rdUnknown 0x00#32).wellFormed 2 = false ∧ (Instr.rdUnknown 0x08#32).wellFormed 2 = false
    ∧ (Instr.wrUnknown 0x40#32 0).wellFormed 2 = false ∧ (Instr.wrUnknown 0x18#32 0).wellFormed 2 = true := by
  decide

/-! ### Decoding: the words written out from the spec's encodings -/

/-- Rows RD_ISR, WR_ISR, RD_IFCR, WR_IFCR: the 32 bits of the offset (T-D1, T-D2). -/
theorem test_decode_global_registers :
    decode 2 (.mmioRead 0b00000000000000000000000000000000#32 4) = .ok .rdIsr
    ∧ decode 2 (.mmioWrite 0b00000000000000000000000000000000#32 4 9) = .ok (.wrIsr 9)
    ∧ decode 2 (.mmioRead 0b00000000000000000000000000000100#32 4) = .ok .rdIfcr
    ∧ decode 2 (.mmioWrite 0b00000000000000000000000000000100#32 4 9) = .ok (.wrIfcr 9) := by decide

/-- T-D4, T-D5, T-D8, T-D9: the channel registers. -/
theorem test_decode_channel_registers :
    decode 2 (.mmioRead 0b00000000000000000000000000011100#32 4) = .ok (.rdCcr 1)
    ∧ decode 2 (.mmioWrite 0b00000000000000000000000000001000#32 4 9) = .ok (.wrCcr 0 9)
    ∧ decode 2 (.mmioRead 0b00000000000000000000000000001100#32 4) = .ok (.rdCndtr 0)
    ∧ decode 2 (.mmioWrite 0b00000000000000000000000000001100#32 4 9) = .ok (.wrCndtr 0 9)
    ∧ decode 2 (.mmioRead 0b00000000000000000000000000010000#32 4) = .ok (.rdCpar 0)
    ∧ decode 2 (.mmioWrite 0b00000000000000000000000000010000#32 4 9) = .ok (.wrCpar 0 9)
    ∧ decode 2 (.mmioRead 0b00000000000000000000000000101000#32 4) = .ok (.rdCmar 1)
    ∧ decode 2 (.mmioWrite 0b00000000000000000000000000010100#32 4 9) = .ok (.wrCmar 0 9)
    ∧ decode 7 (.mmioRead 0b00000000000000000000000010001100#32 4) = .ok (.rdCmar 6) := by decide

/-- T-D3, T-D6, T-D7, T-D10 to T-D14: offsets that name no register. -/
theorem test_decode_inactive_and_unknown :
    decode 2 (.mmioRead 0b00000000000000000000000000000111#32 4) = .ok (.rdUnknown 7)
    ∧ decode 2 (.mmioWrite 0b00000000000000000000000000011000#32 4 9) = .ok (.wrUnknown 0x18 9)
    ∧ decode 2 (.mmioRead 0b00000000000000000000000000001001#32 4) = .ok (.rdUnknown 9)
    ∧ decode 2 (.mmioRead 0b00000000000000000000000000101100#32 4) = .ok (.rdUnknown 0x2C)
    ∧ decode 2 (.mmioRead 0b00000000000000000000000000110000#32 4) = .ok (.rdInactive 0x30)
    ∧ decode 2 (.mmioWrite 0b00000000000000000000000001000000#32 4 9) = .ok (.wrInactive 0x40 9)
    ∧ decode 7 (.mmioRead 0b00000000000000000000000010010100#32 4) = .ok (.rdInactive 0x94)
    ∧ decode 7 (.mmioRead 0b11111111111111111111111111111100#32 4) = .ok (.rdInactive 0xFFFFFFFC) := by decide

/-- The formats of 30_encoding.md R80 that carry no offset. -/
theorem test_decode_other_formats :
    decode 2 (.request (-1) 0) = .ok (.req (-1) 0) ∧ decode 2 .reset = .ok .rst
    ∧ decode 2 (.construct 8 none) = .ok (.cfg 8 none) ∧ decode 2 .snapshot = .ok .snap
    ∧ decode 2 (.restore [1, 2]) = .ok (.load [1, 2]) := by decide

/-- T-F13, T-F14. -/
theorem test_decode_rejects_other_sizes :
    decode 2 (.mmioRead 0x08#32 2) = .error .mmioSize ∧ decode 2 (.mmioWrite 0x00#32 1 0xFF) = .error .mmioSize := by
  decide

/-- Two channel registers of the program lines P7, and an inactive one of P5, encode as the lines say. -/
theorem test_encode_program_lines :
    encode (.wrCndtr 1 1) = .mmioWrite 0x20#32 4 1 ∧ encode (.wrCmar 1 0x3000) = .mmioWrite 0x28#32 4 0x3000
    ∧ encode (.rdInactive 0x30) = .mmioRead 0x30#32 4 ∧ encode (.req 0 1) = .request 0 1 := by decide

/-- The word of a table row is read as the offset of a 4-byte read. -/
theorem test_table_words :
    decodeTableWord 32 0 = some .rdIsr ∧ decodeTableWord 32 4 = some .rdIfcr
    ∧ (nextState (step (State.reset.withFetchWord 32 4))).result = .word 0 := by decide

/-! ### The register file -/

/-- T-F1. -/
theorem test_isr : (nextState (exec (.wrIsr 0xDEADBEEF) router)).isr = 0xDEADBEEF
    ∧ (nextState (exec .rdIsr { router with isr := 0xDEADBEEF })).result = .word 0xDEADBEEF := by decide

/-- T-F2. -/
theorem test_ifcr : (nextState (exec (.wrIfcr 0xF) { router with isr := 7 })).ifcr = 0xF
    ∧ (nextState (exec (.wrIfcr 0xF) { router with isr := 7 })).isr = 7
    ∧ (nextState (exec .rdIfcr { router with ifcr := 0xF })).result = .word 0xF := by decide

/-- T-F3. -/
theorem test_ccr : channelAt (nextState (exec (.wrCcr 1 0xFFFFFFFF) router)) 1 = { Channel.zero with ccr := 0xFFFFFFFF }
    ∧ (nextState (exec (.rdCcr 0) router)).result = .word 0x91 := by decide

/-- T-F4: the count and its reload value. -/
theorem test_cndtr : channelAt (nextState (exec (.wrCndtr 1 7) router)) 1
      = { Channel.zero with cndtr := 7, reloadCndtr := 7 }
    ∧ (nextState (exec (.rdCndtr 0) router)).result = .word 4 := by decide

/-- T-F6. -/
theorem test_cpar : channelAt (nextState (exec (.wrCpar 1 0xFFFFFFFF) router)) 1
      = { Channel.zero with cpar := 0xFFFFFFFF }
    ∧ (nextState (exec (.rdCpar 0) router)).result = .word 0x1000 := by decide

/-- T-F7. -/
theorem test_cmar : channelAt (nextState (exec (.wrCmar 1 1) router)) 1 = { Channel.zero with cmar := 1 }
    ∧ (nextState (exec (.rdCmar 0) router)).result = .word 0x2000 := by decide

/-- T-F8, with slot 2 nonzero as after T-L10. -/
theorem test_inactive : (nextState (exec (.wrInactive 0x30 0x91) router)).ch = router.ch
    ∧ (nextState (exec (.rdInactive 0x30) { router with ch := List.replicate 7 routerSlot })).result = .word 0 := by
  decide

/-- T-F9. -/
theorem test_unknown : (nextState (exec (.wrUnknown 0x18 0x1234) router)).ch = router.ch
    ∧ (nextState (exec (.rdUnknown 0x18) router)).result = .word 0 := by decide

/-! ### Requests -/

/-- T-A1: masks, the window accesses, the merge, MINC alone and the count. -/
theorem test_req_moves_one_element :
    let t := nextState (exec (.req 0 0) (block 1 (slot 0x591 3 0x1003 0x2001)
      [(0x1000, 0xA0), (0x1001, 0xA1), (0x1002, 0xA2), (0x1003, 0xA3),
       (0x2000, 0x11), (0x2001, 0x22), (0x2002, 0x33), (0x2003, 0x44)]))
    t.accesses = [.read 0x2000 0x44332211, .read 0x1002 0x0000A3A2, .write 0x1002 0x00002211]
    ∧ t.mem.take 4 = [(0x1000, 0xA0), (0x1001, 0xA1), (0x1002, 0x11), (0x1003, 0x22)]
    ∧ channelAt t 0 = { slot 0x591 3 0x1003 0x2002 with cndtr := 2 } := by decide

/-- T-R2, T-E1, T-E3, then T-E4 to T-E7. -/
theorem test_req_stops_and_no_ops :
    exec (.req (-1) 1) router = .next router
    ∧ exec (.req 0 1) (block 1 (slot 0x90 4 0x1000 0x2000) []) = .next (block 1 (slot 0x90 4 0x1000 0x2000) [])
    ∧ exec (.req 0 1) (block 1 (slot 0xC90 4 0 0) []) = .next (block 1 (slot 0xC90 4 0 0) [])
    ∧ exec (.req 0 1) (block 1 (slot 0xC91 4 0 0) []) = .refused .reservedSize
    ∧ exec (.req 0 1) (block 1 (slot 0x391 4 0 0) []) = .refused .reservedSize
    ∧ exec (.req 0 1) { router with accessor := { nonMemory := [], selfWindow := [⟨0x1002, 1⟩] } }
      = .refused .selfAccess
    ∧ (channelAt (nextState (exec (.req 0 1)
        { router with accessor := { nonMemory := [], selfWindow := [⟨0x1004, 1⟩] } })) 0).cndtr = 3 :=
  ⟨rfl, rfl, rfl, rfl, rfl, rfl, by decide⟩

/-- T-M1 to T-M9. -/
theorem test_merge_every_size_pair :
    let s := 0x11223344#32
    let d := 0xAABBCCDD#32
    merge d .byte s .byte = 0xAABBCC44#32 ∧ merge d .halfword s .byte = 0xAABB0044#32
    ∧ merge d .word s .byte = 0x00000044#32 ∧ merge d .byte s .halfword = 0xAABBFF44#32
    ∧ merge d .halfword s .halfword = 0xAABB3344#32 ∧ merge d .word s .halfword = 0x00003344#32
    ∧ merge d .byte s .word = 0xBBBBFF44#32 ∧ merge d .halfword s .word = 0xBBBB3344#32
    ∧ merge d .word s .word = 0x11223344#32 := by decide

/-- T-A4: a window over the top of the space. -/
theorem test_window_wraps :
    memRead [(0, 0x03), (1, 0x04), (0xFFFFFFFE, 0x01), (0xFFFFFFFF, 0x02)] 0xFFFFFFFE#32 = 0x04030201#32
    ∧ memWrite [] [(0, 0x03), (1, 0x04), (0xFFFFFFFE, 0x01), (0xFFFFFFFF, 0x02)] 0xFFFFFFFE#32 0x04030277#32
      = [(0, 0x03), (1, 0x04), (0xFFFFFFFE, 0x77), (0xFFFFFFFF, 0x02)] := by decide

/-- T-I1, T-I2, T-C1, T-C2, T-C5 and T-C4, on the registers of the channel. -/
theorem test_after_element :
    (afterElement (slot 0x91 1 0x1000 0xFFFFFFFF)).cmar = 0
    ∧ (afterElement (slot 0x41 1 0xFFFFFFFF 0x2000)).cpar = 0
    ∧ (afterElement (slot 0x41 1 0xFFFFFFFF 0x2000)).cmar = 0x2000
    ∧ (afterElement (slot 0x91 1 0 0)).cndtr = 0 ∧ (afterElement (slot 0xB1 1 0 0)).cndtr = 1
    ∧ (afterElement (slot 0xB1 0xFFFFFFFF 0 0)).cndtr = 0xFFFFFFFE
    ∧ (afterElement { slot 0x21 1 0 0 with reloadCndtr := 0 }).cndtr = 0 := by decide

/-! ### Lifecycle -/

/-- T-L7, on a block with an inactive slot nonzero: channel_count is kept (T-L12: memory too). -/
theorem test_rst :
    let t := nextState (exec .rst { router with isr := 5, ifcr := 6, ch := List.replicate 7 routerSlot })
    t.isr = 0 ∧ t.ifcr = 0 ∧ t.ch = List.replicate 7 Channel.zero ∧ t.channelCount = 2 ∧ t.mem = router.mem := by
  decide

/-- T-L1 to T-L4, each on a machine without a block; then a construction where a block exists (43_lifecycle.md R171). -/
theorem test_cfg :
    fault? (exec (.cfg 2 none) .unconstructed) = some .noAccessor
    ∧ fault? (exec (.cfg 0 (some Config.plainAccessor)) .unconstructed) = some .badChannelCount
    ∧ fault? (exec (.cfg 8 (some Config.plainAccessor)) .unconstructed) = some .badChannelCount
    ∧ exec (.cfg 7 (some Config.plainAccessor)) .unconstructed = .next State.reset
    ∧ refusal? (exec (.cfg 7 (some Config.plainAccessor)) router) = some .alreadyConstructed
    ∧ refusal? (exec (.cfg 2 none) router) = some .alreadyConstructed :=
  ⟨by decide, by decide, by decide, rfl, by decide, by decide⟩

/-- The snapshot of T-L6. -/
theorem test_snap :
    (nextState (exec .snap { block 2 Channel.zero [] with
        isr := 0xDEADBEEF, ifcr := 0xF
        ch := [Channel.zero, { Channel.zero with ccr := 0xFFFFFFFF }] ++ List.replicate 5 Channel.zero })).result
      = .record ([0xDEADBEEF, 0xF, 2, 0, 0, 0, 0, 0, 0xFFFFFFFF, 0, 0, 0, 0] ++ List.replicate 25 0) := by decide

/-- T-L8 to T-L10. -/
theorem test_load :
    refusal? (exec (.load (List.replicate 37 0)) router) = some .restoreShape
    ∧ refusal? (exec (.load ([0, 0, 3] ++ List.replicate 35 0)) router) = some .restoreMismatch
    ∧ channelAt (nextState (exec (.load ([0, 0, 2] ++ List.replicate 10 0 ++ [0x91] ++ List.replicate 24 0)) router)) 2
      = { Channel.zero with ccr := 0x91 } := by decide

/-! ### Steps -/

/-- One step takes one event (20_memory.md R68). -/
theorem test_step :
    (nextState (step { router with input := [.operation (.mmioRead 0x14 4), .targetStore 0 1] })).result
      = .word 0x2000
    ∧ (nextState (step { router with input := [.operation (.mmioRead 0x14 4), .targetStore 0 1] })).input
      = [.targetStore 0 1]
    ∧ (nextState (step { router with input := [.targetStore 0x1FFF 1] })).mem.head? = some (0x1FFF, 1)
    ∧ refusal? (step { router with input := [.operation (.mmioRead 0x08 2)] }) = some .mmioSize
    ∧ refusal? (step { State.unconstructed with input := [.operation .reset] }) = some .notConstructed := by decide

/-! ### The hypotheses of the statements can be met -/

theorem witness_router_keeps_invariant : router.Inv ∧ router.InactiveZero := by decide

theorem witness_RdIsrReturnsLastStoredValue :
    exec (.wrIsr 5) router = .next (nextState (exec (.wrIsr 5) router))
    ∧ exec (.load (snapshotRecord router)) router = .next (nextState (exec (.load (snapshotRecord router)) router))
    ∧ exec .rst router = .next (nextState (exec .rst router))
    ∧ exec (.req 0 1) router = .next (nextState (exec (.req 0 1) router)) := ⟨rfl, rfl, rfl, rfl⟩

theorem witness_RdIfcrReturnsStoredValue :
    exec (.wrIfcr 5) router = .next (nextState (exec (.wrIfcr 5) router)) := rfl

theorem witness_WrIfcrStoresAndClearsNothing :
    exec (.wrIfcr 6) { router with isr := 7 } = .next (nextState (exec (.wrIfcr 6) { router with isr := 7 })) := rfl

theorem witness_RdCcrReturnsStoredWord :
    0 < router.channelCount ∧ router.ch[0]? = some routerSlot ∧ 8 + 20 * 0 + 0 < 2 ^ 32
    ∧ exec (.wrCcr 0 9) router = .next (nextState (exec (.wrCcr 0 9) router))
    ∧ exec (.load (snapshotRecord router)) router = .next (nextState (exec (.load (snapshotRecord router)) router))
    ∧ exec .rst router = .next (nextState (exec .rst router))
    ∧ exec (.req 0 1) router = .next (nextState (exec (.req 0 1) router)) :=
  ⟨by decide, by decide, by decide, rfl, rfl, rfl, rfl⟩

theorem witness_WrCcrStoresEveryBitAndStartsNothing :
    0 < router.channelCount ∧ router.ch[0]? = some routerSlot ∧ 8 + 20 * 0 + 0 < 2 ^ 32 := by decide

theorem witness_RdCndtrReturnsRemainingCount :
    0 < router.channelCount ∧ router.ch[0]? = some routerSlot ∧ 8 + 20 * 0 + 4 < 2 ^ 32 := by decide

theorem witness_WrCndtrStoresCountAndReload :
    0 < router.channelCount ∧ router.ch[0]? = some routerSlot ∧ 8 + 20 * 0 + 4 < 2 ^ 32
    ∧ exec (.wrCndtr 0 0) router = .next (nextState (exec (.wrCndtr 0 0) router)) :=
  ⟨by decide, by decide, by decide, rfl⟩

theorem witness_RdCparReturnsUnmaskedRegister :
    1 < router.channelCount ∧ router.ch[1]? = some Channel.zero ∧ 8 + 20 * 1 + 8 < 2 ^ 32 := by decide

theorem witness_WrCparStoresUnmasked :
    0 < router.channelCount ∧ router.ch[0]? = some routerSlot ∧ 8 + 20 * 0 + 8 < 2 ^ 32 := by decide

theorem witness_RdCmarReturnsUnmaskedRegister :
    1 < router.channelCount ∧ router.ch[1]? = some Channel.zero ∧ 8 + 20 * 1 + 12 < 2 ^ 32 := by decide

theorem witness_WrCmarStoresUnmasked :
    0 < router.channelCount ∧ router.ch[0]? = some routerSlot ∧ 8 + 20 * 0 + 12 < 2 ^ 32 := by decide

/-- The first inactive offset and the last offset of the window. -/
theorem witness_InactiveOffsetsReadZeroAndIgnoreWrites :
    8 ≤ (0x30#32).toNat ∧ router.channelCount ≤ ((0x30#32).toNat - 8) / 20
    ∧ 8 ≤ (0xFFFFFFFF#32).toNat ∧ router.channelCount ≤ ((0xFFFFFFFF#32).toNat - 8) / 20 := by decide

/-- Both clauses, the second at the first and the last unknown offset of the last active channel. -/
theorem witness_UnknownOffsetsReadZeroAndIgnoreWrites :
    (7#32).toNat ∈ [1, 2, 3, 5, 6, 7]
    ∧ (8 ≤ (0x1D#32).toNat ∧ ((0x1D#32).toNat - 8) / 20 < router.channelCount
        ∧ ((0x1D#32).toNat - 8) % 20 ∉ [0, 4, 8, 12])
    ∧ (8 ≤ (0x2F#32).toNat ∧ ((0x2F#32).toNat - 8) / 20 < router.channelCount
        ∧ ((0x2F#32).toNat - 8) % 20 ∉ [0, 4, 8, 12]) := by decide

/-- Each clause: offsets 0, 4 and 7; index 1 of 2 at sub-offsets 0, 4, 8, 12 and 19; index 2 of 2. -/
theorem witness_OffsetDecodeFollowsRegisterMap :
    (0#32).toNat = 0 ∧ (4#32).toNat = 4 ∧ ((7#32).toNat < 8 ∧ (7#32).toNat ≠ 0 ∧ (7#32).toNat ≠ 4)
    ∧ (0x1C#32).toNat = 8 + 20 * 1 + 0 ∧ (0x20#32).toNat = 8 + 20 * 1 + 4 ∧ (0x24#32).toNat = 8 + 20 * 1 + 8
    ∧ (0x28#32).toNat = 8 + 20 * 1 + 12 ∧ (0x2F#32).toNat = 8 + 20 * 1 + 19 ∧ 19 ∉ [0, 4, 8, 12]
    ∧ (0x30#32).toNat = 8 + 20 * 2 + 0 := by decide

/-- Each clause of the two statements about an MMIO access: the targets are met. -/
theorem witness_MmioReadReturnsDecodedRegister :
    router.constructed = true
    ∧ ({ router with input := [.operation (.mmioRead 0x08 4)] } : State).input = .operation (.mmioRead 0x08 4) :: []
    ∧ decodeOffset 2 0x00#32 = .isr ∧ decodeOffset 2 0x04#32 = .ifcr ∧ decodeOffset 2 0x1C#32 = .channel 1 .ccr
    ∧ decodeOffset 2 0x20#32 = .channel 1 .cndtr ∧ decodeOffset 2 0x24#32 = .channel 1 .cpar
    ∧ decodeOffset 2 0x28#32 = .channel 1 .cmar ∧ decodeOffset 2 0x30#32 = .inactive 2
    ∧ decodeOffset 2 0x2F#32 = .unknown ∧ router.ch[1]? = some Channel.zero := by decide

theorem witness_MmioWriteStoresInDecodedRegister :
    router.constructed = true
    ∧ ({ router with input := [.operation (.mmioWrite 0x08 4 9)] } : State).input
      = .operation (.mmioWrite 0x08 4 9) :: []
    ∧ decodeOffset 2 0x00#32 = .isr ∧ decodeOffset 2 0x04#32 = .ifcr ∧ decodeOffset 2 0x08#32 = .channel 0 .ccr
    ∧ decodeOffset 2 0x0C#32 = .channel 0 .cndtr ∧ decodeOffset 2 0x10#32 = .channel 0 .cpar
    ∧ decodeOffset 2 0x14#32 = .channel 0 .cmar ∧ decodeOffset 2 0x40#32 = .inactive 2
    ∧ decodeOffset 2 0x18#32 = .unknown ∧ router.ch[0]? = some routerSlot := by decide

theorem witness_MmioOfAnotherSizeIsRefused :
    3 ≠ 4 ∧ ({ router with input := [.operation (.mmioRead 0x00 3)] } : State).input
      = .operation (.mmioRead 0x00 3) :: []
    ∧ 5 ≠ 4 ∧ ({ router with input := [.operation (.mmioWrite 0x00 5 9)] } : State).input
      = .operation (.mmioWrite 0x00 5 9) :: [] := by decide

theorem witness_RepeatedWriteIsIdempotent :
    decode router.channelCount (.mmioWrite 0x0C 4 9) = .ok (.wrCndtr 0 9)
    ∧ exec (.wrCndtr 0 9) router = .next (nextState (exec (.wrCndtr 0 9) router)) := ⟨by decide, rfl⟩

/-- One run in between that no clause forbids: a request on channel 0 after a write of channel 1's registers. -/
theorem witness_RoundTripSurvivesOtherOperations :
    router.Inv ∧ 1 < router.channelCount
    ∧ (∀ i ∈ [Instr.req 0 1], ∀ w, mayWrite i w .isr = false ∧ mayWrite i w .ifcr = false
        ∧ mayWrite i w (.ccr 1) = false ∧ mayWrite i w (.cndtr 1) = false ∧ mayWrite i w (.cpar 1) = false
        ∧ mayWrite i w (.cmar 1) = false)
    ∧ ∀ i ∈ [Instr.wrIsr 5, .wrIfcr 5, .wrCcr 1 5, .wrCndtr 1 5, .wrCpar 1 5, .wrCmar 1 5],
        ∃ t u, exec i router = .next t ∧ runAll [.req 0 1] t = .next u := by
  refine ⟨by decide, by decide, ?_, ?_⟩
  · simp [mayWrite, writesEverything, transferWith]
  · simp only [List.mem_cons, List.not_mem_nil, or_false, forall_eq_or_imp, forall_eq]
    exact ⟨⟨_, _, rfl, rfl⟩, ⟨_, _, rfl, rfl⟩, ⟨_, _, rfl, rfl⟩, ⟨_, _, rfl, rfl⟩, ⟨_, _, rfl, rfl⟩, ⟨_, _, rfl, rfl⟩⟩

theorem witness_FieldsAreWrittenOnlyByTheirWriters :
    exec (.req 0 1) router = .next (nextState (exec (.req 0 1) router))
    ∧ mayWrite (.req 0 1) router (.cpar 0) = false ∧ mayWrite (.req 0 1) router (.cmar 1) = false :=
  ⟨rfl, by decide, by decide⟩

/-- The two nearest invalid indices. -/
theorem witness_RequestWithInvalidIndexIsIgnored :
    ((-1 : Int) < 0 ∨ (router.channelCount : Int) ≤ -1) ∧ ((2 : Int) < 0 ∨ (router.channelCount : Int) ≤ 2) := by
  decide

theorem witness_LostRequestsLeaveNoTrace :
    1 < router.channelCount ∧ router.ch[1]? = some Channel.zero ∧ ccrEn Channel.zero.ccr = false := by decide

/-- Each way to be rejected, the second with a reserved size code. -/
theorem witness_RejectedRequestIsACompleteNoOp :
    0 < (block 1 (slot 0xC90 4 0 0) []).channelCount
    ∧ (block 1 (slot 0xC90 4 0 0) []).ch[0]? = some (slot 0xC90 4 0 0) ∧ ccrEn (slot 0xC90 4 0 0).ccr = false
    ∧ (block 1 (slot 0xC91 0 0 0) []).ch[0]? = some (slot 0xC91 0 0 0) ∧ (slot 0xC91 0 0 0).cndtr = 0 := by decide

/-- Memory to peripheral on `router`, and peripheral to memory on the start state of program P3. -/
theorem witness_AcceptedRequestMovesOneElement :
    (router.Inv ∧ 0 < router.channelCount ∧ router.ch[0]? = some routerSlot ∧ ccrEn routerSlot.ccr = true
      ∧ routerSlot.cndtr ≠ 0 ∧ sizeOfCode (ccrPsize routerSlot.ccr) = some .byte
      ∧ sizeOfCode (ccrMsize routerSlot.ccr) = some .byte ∧ ccrDir routerSlot.ccr = true
      ∧ (0x2000#32 : Word) = routerSlot.cmar &&& amask .byte ∧ (0x1000#32 : Word) = routerSlot.cpar &&& amask .byte
      ∧ windowTouches router.accessor.selfWindow 0x2000 = false
      ∧ windowTouches router.accessor.selfWindow 0x1000 = false
      ∧ windowTouches router.accessor.nonMemory 0x2000 = false
      ∧ windowTouches router.accessor.nonMemory 0x1000 = false)
    ∧ (let x := slot 0x9C1 2 0x3001 0x4002
       (block 1 x []).Inv ∧ 0 < (block 1 x []).channelCount ∧ (block 1 x []).ch[0]? = some x
       ∧ ccrEn x.ccr = true ∧ x.cndtr ≠ 0 ∧ sizeOfCode (ccrPsize x.ccr) = some .halfword
       ∧ sizeOfCode (ccrMsize x.ccr) = some .word ∧ ccrDir x.ccr = false
       ∧ (0x3000#32 : Word) = x.cpar &&& amask .halfword ∧ (0x4000#32 : Word) = x.cmar &&& amask .word
       ∧ windowTouches (block 1 x []).accessor.selfWindow 0x3000 = false
       ∧ windowTouches (block 1 x []).accessor.selfWindow 0x4000 = false) := by decide

/-- A target that is no plain memory, for the clauses that leave the value free. -/
theorem witness_AcceptedRequestOnADevice :
    let a : Accessor := { nonMemory := [⟨0x1000, 4⟩], selfWindow := [] }
    windowTouches a.nonMemory 0x1000 = true ∧ windowTouches a.nonMemory 0x0FFC = false
    ∧ windowTouches a.nonMemory 0x0FFD = true ∧ windowTouches a.nonMemory 0x1004 = false
    ∧ windowTouches a.selfWindow 0x1000 = false := by decide

theorem witness_RequestsMakeThreeAccessesInOrder :
    exec (.req 0 1) router = .next (nextState (exec (.req 0 1) router))
    ∧ (nextState (exec (.req 0 1) router)).accesses.length = 3
    ∧ exec (.req 1 1) router = .next (nextState (exec (.req 1 1) router))
    ∧ isRequest (.wrCcr 0 9) = false ∧ exec (.wrCcr 0 9) router = .next (nextState (exec (.wrCcr 0 9) router)) :=
  ⟨rfl, by decide, rfl, by decide, rfl⟩

theorem witness_DirectionChoosesTheSides :
    ccrDir (slot 0x9C1 2 0x3001 0x4002).ccr = false ∧ ccrDir routerSlot.ccr = true := by decide

theorem witness_IncrementIsOneWhateverTheSize :
    0 < router.channelCount ∧ router.ch[0]? = some routerSlot
    ∧ exec (.req (0 : Nat) 1) router = .next (nextState (exec (.req (0 : Nat) 1) router))
    ∧ (nextState (exec (.req (0 : Nat) 1) router)).accesses ≠ [] := ⟨by decide, by decide, rfl, by decide⟩

/-- The count at 2, and at 1 with and without circular mode. -/
theorem witness_CountDecrementsAndReloads :
    (∀ x ∈ [slot 0x91 2 0x1000 0x2000, slot 0xB1 1 0x1000 0x2000, slot 0x91 1 0x1000 0x2000],
      0 < (block 1 x []).channelCount ∧ (block 1 x []).ch[0]? = some x
      ∧ (nextState (exec (.req (0 : Nat) 1) (block 1 x []))).accesses ≠ [])
    ∧ 2 ≤ (slot 0x91 2 0x1000 0x2000).cndtr.toNat
    ∧ (slot 0xB1 1 0x1000 0x2000).cndtr.toNat = 1 ∧ ccrCirc (slot 0xB1 1 0x1000 0x2000).ccr = true
    ∧ ccrCirc (slot 0x91 1 0x1000 0x2000).ccr = false
    ∧ exec (.req (0 : Nat) 1) (block 1 (slot 0x91 1 0x1000 0x2000) [])
      = .next (nextState (exec (.req (0 : Nat) 1) (block 1 (slot 0x91 1 0x1000 0x2000) []))) :=
  ⟨by decide, by decide, by decide, by decide, by decide, rfl⟩

theorem witness_TransfersNeverTouchInterruptRegisters :
    exec (.req 0 1) router = .next (nextState (exec (.req 0 1) router)) ∧ router.ch[0]? = some routerSlot :=
  ⟨rfl, by decide⟩

/-- Every bit that no rule reads flipped, on an accepted request and on a refused one. -/
theorem witness_StoredOnlyBitsOfCcrChangeNothing :
    let w := 0xFFFFF09F#32
    router.ch[0]? = some routerSlot ∧ ccrEn w = ccrEn routerSlot.ccr ∧ ccrDir w = ccrDir routerSlot.ccr
    ∧ ccrCirc w = ccrCirc routerSlot.ccr ∧ ccrPinc w = ccrPinc routerSlot.ccr ∧ ccrMinc w = ccrMinc routerSlot.ccr
    ∧ ccrPsize w = ccrPsize routerSlot.ccr ∧ ccrMsize w = ccrMsize routerSlot.ccr ∧ w ≠ routerSlot.ccr
    ∧ exec (.req 0 1) router = .next (nextState (exec (.req 0 1) router))
    ∧ exec (.req 0 1) { router with accessor := { nonMemory := [], selfWindow := [⟨0x1002, 1⟩] } }
      = .refused .selfAccess :=
  ⟨by decide, by decide, by decide, by decide, by decide, by decide, by decide, by decide, by decide, rfl, rfl⟩

theorem witness_CircularModeReloadsTheCountAndNotTheAddresses :
    let x := slot 0xB1 4 0x1000 0x2000
    0 < (block 1 x []).channelCount ∧ (block 1 x []).ch[0]? = some x ∧ (block 1 x []).accessor.selfWindow = []
    ∧ ccrEn x.ccr = true ∧ ccrCirc x.ccr = true ∧ x.cndtr ≠ 0 ∧ x.reloadCndtr = x.cndtr
    ∧ (sizeOfCode (ccrPsize x.ccr)).isSome = true ∧ (sizeOfCode (ccrMsize x.ccr)).isSome = true := by decide

theorem witness_NonCircularChannelStopsAtZero :
    0 < router.channelCount ∧ router.ch[0]? = some routerSlot ∧ router.accessor.selfWindow = []
    ∧ ccrEn routerSlot.ccr = true ∧ ccrCirc routerSlot.ccr = false
    ∧ (sizeOfCode (ccrPsize routerSlot.ccr)).isSome = true
    ∧ (sizeOfCode (ccrMsize routerSlot.ccr)).isSome = true := by decide

theorem witness_CopyOntoItselfChangesNoByte :
    let x := slot 0x591 3 0x2000 0x2001
    let s := block 1 x [(0x2000, 0x11), (0x2001, 0x22)]
    s.Inv ∧ s.ch[(0 : Int).toNat]? = some x ∧ sizeOfCode (ccrPsize x.ccr) = some .halfword
    ∧ sizeOfCode (ccrMsize x.ccr) = some .halfword
    ∧ effectiveAddress x.cpar .halfword = effectiveAddress x.cmar .halfword
    ∧ windowTouches s.accessor.nonMemory (effectiveAddress x.cpar .halfword) = false
    ∧ exec (.req 0 1) s = .next (nextState (exec (.req 0 1) s))
    ∧ (nextState (exec (.req 0 1) s)).accesses ≠ [] :=
  ⟨by decide, by decide, by decide, by decide, by decide, by decide, rfl, by decide⟩

/-- Each clause: a reserved code on either side, and the block's own byte at the end of either window. -/
theorem witness_ReservedSizeAndOwnWindowAreRefused :
    (∀ x ∈ [slot 0x391 4 0 0, slot 0xC91 4 0 0],
      0 < (block 1 x []).channelCount ∧ (block 1 x []).ch[0]? = some x ∧ ccrEn x.ccr = true ∧ x.cndtr ≠ 0
      ∧ (ccrPsize x.ccr = 0b11#2 ∨ ccrMsize x.ccr = 0b11#2))
    ∧ 0 < router.channelCount ∧ router.ch[0]? = some routerSlot ∧ ccrEn routerSlot.ccr = true
    ∧ routerSlot.cndtr ≠ 0 ∧ sizeOfCode (ccrPsize routerSlot.ccr) = some .byte
    ∧ sizeOfCode (ccrMsize routerSlot.ccr) = some .byte
    ∧ windowTouches [⟨0x1003, 1⟩] (effectiveAddress routerSlot.cpar .byte) = true
    ∧ windowTouches [⟨0x2003, 1⟩] (effectiveAddress routerSlot.cmar .byte) = true := by decide

/-- Two states that differ in the other slot and in the global registers. -/
theorem witness_RequestSeesAndChangesOnlyItsOwnSlot :
    let s' := { router with isr := 9, ch := router.ch.set 1 routerSlot }
    s'.channelCount = router.channelCount ∧ s'.accessor = router.accessor ∧ s'.mem = router.mem
    ∧ s'.draws = router.draws ∧ s'.ch[0]? = router.ch[0]? ∧ s' ≠ router
    ∧ exec (.req (0 : Nat) 1) router = .next (nextState (exec (.req (0 : Nat) 1) router)) :=
  ⟨by decide, by decide, by decide, by decide, by decide, by decide, rfl⟩

/-- Two channels that both move an element, between disjoint windows of plain memory. -/
def pair : State :=
  { router with ch := [routerSlot, slot 0x9C1 2 0x3001 0x4002] ++ List.replicate 5 Channel.zero }

theorem witness_RequestsToDifferentChannelsCommute :
    (0 : Nat) ≠ 1 ∧ exec (.req (0 : Nat) 1) pair = .next (nextState (exec (.req (0 : Nat) 1) pair))
    ∧ exec (.req (1 : Nat) 1) pair = .next (nextState (exec (.req (1 : Nat) 1) pair))
    ∧ pair.Inv ∧ pair.accessor.nonMemory = []
    ∧ (∀ e ∈ (nextState (exec (.req (0 : Nat) 1) pair)).accesses,
        ∀ e' ∈ (nextState (exec (.req (1 : Nat) 1) pair)).accesses, ∀ i < 4, ∀ j < 4,
          windowAddress e.address i ≠ windowAddress e'.address j)
    ∧ (nextState (exec (.req (0 : Nat) 1) pair)).accesses ≠ []
    ∧ (nextState (exec (.req (1 : Nat) 1) pair)).accesses ≠ [] :=
  ⟨by decide, rfl, rfl, by decide, by decide, by decide, by decide, by decide⟩

theorem witness_AfterResetEveryRequestIsANoOp : exec .rst router = .next (nextState (exec .rst router)) := rfl

/-- Both ends of each range, on a block of 7 slots. -/
theorem witness_ConstructionBindsAndResets :
    let s := State.unconstructed
    s.constructed = false ∧ (0 < 1 ∨ s.ch.length < 0) ∧ (8 < 1 ∨ s.ch.length < 8) ∧ (1 ≤ 1 ∧ 1 ≤ s.ch.length)
    ∧ (1 ≤ 7 ∧ 7 ≤ s.ch.length) ∧ router.constructed = true := by decide

theorem witness_SnapshotHasTheFixedFieldOrder :
    router.ch[0]? = some routerSlot ∧ router.ch[6]? = some Channel.zero := by decide

/-- Each clause: a record too short, one of another count, and a snapshot. -/
theorem witness_RestoreLoadsTheRecordVerbatim :
    (List.replicate 37 (0 : Word)).length ≠ 3 + 5 * router.ch.length
    ∧ ([0, 0, 3] ++ List.replicate 35 0 : List Word).length = 3 + 5 * router.ch.length
    ∧ ([0, 0, 3] ++ List.replicate 35 0 : List Word)[2]? ≠ some (BitVec.ofNat 32 router.channelCount)
    ∧ (snapshotRecord router).length = 3 + 5 * router.ch.length
    ∧ (snapshotRecord router)[2]? = some (BitVec.ofNat 32 router.channelCount) := by decide

theorem witness_RestoreOfASnapshotUndoesAllButMemory :
    exec .snap router = .next (nextState (exec .snap router))
    ∧ (nextState (exec .snap router)).result = .record (snapshotRecord router)
    ∧ router.constructed = true ∧ (∀ i ∈ [Instr.req 0 1, .rst], isConstruction i = false)
    ∧ runAll [.req 0 1, .rst] (nextState (exec .snap router))
      = .next (nextState (runAll [.req 0 1, .rst] (nextState (exec .snap router)))) :=
  ⟨rfl, by decide, by decide, by decide, rfl⟩

theorem witness_WindowIsStoredLittleEndian :
    Memory.wf [] = true ∧ Memory.wf router.mem = true ∧ (4#32 : Word) ≠ 0 ∧ (4#32 : Word) ≠ 0 + 1
    ∧ (4#32 : Word) ≠ 0 + 2 ∧ (4#32 : Word) ≠ 0 + 3 := by decide

theorem witness_EveryStepKeepsTheInvariant :
    ({ router with input := [.operation (.request 0 1)] } : State).Inv ∧ router.constructed = true
    ∧ step { router with input := [.operation (.request 0 1)] }
      = .next (nextState (step { router with input := [.operation (.request 0 1)] })) := ⟨by decide, by decide, rfl⟩

theorem witness_InactiveSlotsStayZeroUntilRestore :
    let s := { router with input := [.operation (.request 0 1)] }
    s.Inv ∧ s.InactiveZero ∧ (∀ r rest, s.input ≠ .operation (.restore r) :: rest)
    ∧ step s = .next (nextState (step s)) :=
  ⟨by decide, by decide, by intro r rest h; simp at h, rfl⟩

theorem witness_OnlyConstructionIsFatal :
    step { State.unconstructed with input := [.operation (.construct 2 none)] } = .fault .noAccessor
    ∧ step { State.unconstructed with input := [.operation (.construct 8 (some Config.plainAccessor))] }
      = .fault .badChannelCount := ⟨rfl, rfl⟩

/-- Every refusal of the list is reached. -/
theorem witness_RefusalsAreTheClosedList :
    step { router with input := [.operation (.mmioRead 0x08 2)] } = .refused .mmioSize
    ∧ step { block 1 (slot 0xC91 4 0 0) [] with input := [.operation (.request 0 1)] } = .refused .reservedSize
    ∧ step { router with
        accessor := { nonMemory := [], selfWindow := [⟨0x1002, 1⟩] }, input := [.operation (.request 0 1)] }
      = .refused .selfAccess
    ∧ step { router with input := [.operation (.restore [])] } = .refused .restoreShape
    ∧ step { router with input := [.operation (.restore ([0, 0, 3] ++ List.replicate 35 0))] }
      = .refused .restoreMismatch
    ∧ step { router with input := [.operation (.construct 2 none)] } = .refused .alreadyConstructed
    ∧ step { State.unconstructed with input := [.operation .snapshot] } = .refused .notConstructed :=
  ⟨rfl, rfl, rfl, rfl, rfl, rfl, rfl⟩

/-- Each clause: on a block, the construction of one, and before it. -/
theorem witness_StepRunsTheDecodedOperation :
    router.constructed = true ∧ ({ router with input := [.operation .snapshot] } : State).input = .operation .snapshot :: []
    ∧ decode router.channelCount .snapshot = .ok .snap
    ∧ decode State.unconstructed.channelCount (.construct 2 none) = .ok (.cfg 2 none)
    ∧ isConstruction (.cfg 2 none) = true ∧ State.unconstructed.constructed = false
    ∧ decode State.unconstructed.channelCount .snapshot = .ok .snap ∧ isConstruction .snap = false := by decide

/-- Both clauses. -/
theorem witness_IdleAndForeignStoresTouchNoBlockState :
    router.input = [] ∧ ({ router with input := [.targetStore 0xFFFFFFFF 1] } : State).input
      = .targetStore 0xFFFFFFFF 1 :: [] ∧ router.Inv := by decide

/-- The last well-formed offset of a block with as many channels as a u32 offset can reach. -/
theorem witness_DecodeOfEncodeIsTheInstruction :
    (Instr.wrCndtr 214748364 9).wellFormed 214748365 = true ∧ (Instr.rdCmar 6).wellFormed 7 = true
    ∧ (Instr.wrInactive 0xFFFFFFFF 9).wellFormed 7 = true ∧ (Instr.rdUnknown 7).wellFormed 7 = true := by decide

theorem witness_EncodeOfDecodeIsTheOperation :
    decode 7 (.mmioRead 0x8C 4) = .ok (.rdCmar 6) ∧ decode 7 (.restore []) = .ok (.load []) := by decide

/-- A run of two steps, and a run of one whose next event is a construction. -/
theorem witness_ChannelCountAndAccessorAreFixedForLife :
    let s := { router with
      input := [.operation (.request 0 1), .operation (.construct 7 (some Config.plainAccessor))] }
    s.constructed = true ∧ Host.Core.run Sys2Proof.core 1 s = .next (nextState (step s))
    ∧ (nextState (step s)).input = [.operation (.construct 7 (some Config.plainAccessor))]
    ∧ Host.Core.run Sys2Proof.core 2 { router with input := [.operation (.request 0 1)] }
      = .next (nextState (step { router with input := [.operation (.request 0 1)] })) :=
  ⟨by decide, rfl, by decide, rfl⟩

/-- Both ends of the range of the count. -/
theorem witness_ARunStartsWithAConstruction :
    State.unconstructed.constructed = false ∧ Memory.wf State.unconstructed.mem = true
    ∧ (1 ≤ 1 ∧ 1 ≤ State.unconstructed.ch.length) ∧ (1 ≤ 7 ∧ 7 ≤ State.unconstructed.ch.length)
    ∧ ({ State.unconstructed with input := [.operation (.construct 7 (some Config.plainAccessor))] } : State).input
      = .operation (.construct 7 (some Config.plainAccessor)) :: [] := by decide

end Sys2Proof.Tests
end

section
/-!
PROOFS. The frame of the block's fields (10_state.md R47): each named update of the state says which fields it keeps,
and no operation is more than such an update.
-/

namespace Sys2Proof.Machine

variable {s t : State} {f : BlockField} {c : Nat}

/-! ### Which updates keep a field -/

theorem BlockField.same_refl (f : BlockField) (s : State) : f.same s s := by cases f <;> rfl

/-- The end of an operation shows in no field of the block. -/
@[simp] theorem BlockField.same_answer {r : Result} : f.same s (answer t r) ↔ f.same s t := by
  cases f <;> exact Iff.rfl

/-- An operation that only gives something back keeps every field. -/
theorem BlockField.same_of_only_answers {r : Result}
    (h : (.next (answer s r) : Host.Outcome State Fault Refusal) = .next t) : f.same s t := by
  cases h
  exact BlockField.same_answer.2 (f.same_refl s)

/-- Replacing a slot keeps every projection of a slot that the new value keeps. -/
theorem map_getElem?_setChannel {y : Channel} {d : Nat} (g : Channel → Word)
    (hg : d = c → g y = g (channelAt s c)) : (setChannel s c y).ch[d]?.map g = s.ch[d]?.map g := by
  rw [setChannel_ch]
  by_cases hd : d = c
  · subst hd
    by_cases hl : d < s.ch.length
    · simp [hl, hg rfl, channelAt]
    · simp [hl]
  · rw [List.getElem?_set_ne (Ne.symm hd)]

/-- The field is none of slot `c`, or the slot values `x` and `y` agree on it. A field of the slot that is not
mentioned must be the same in both by definition. -/
structure BlockField.KeptIn (f : BlockField) (c : Nat) (x y : Channel) : Prop where
  ccr : f = .ccr c → y.ccr = x.ccr := by exact fun _ => rfl
  cndtr : f = .cndtr c → y.cndtr = x.cndtr := by exact fun _ => rfl
  reloadCndtr : f = .reloadCndtr c → y.reloadCndtr = x.reloadCndtr := by exact fun _ => rfl
  cpar : f = .cpar c → y.cpar = x.cpar := by exact fun _ => rfl
  cmar : f = .cmar c → y.cmar = x.cmar := by exact fun _ => rfl

/-- Replacing slot `c` keeps every field that the new slot value keeps. -/
theorem BlockField.same_setChannel {y : Channel} (h : f.KeptIn c (channelAt s c) y) :
    f.same s (setChannel s c y) := by
  cases f with
  | isr | ifcr | channelCount | accessor => rfl
  | ccr d => exact map_getElem?_setChannel (·.ccr) fun hd => h.ccr (congrArg _ hd)
  | cndtr d => exact map_getElem?_setChannel (·.cndtr) fun hd => h.cndtr (congrArg _ hd)
  | reloadCndtr d => exact map_getElem?_setChannel (·.reloadCndtr) fun hd => h.reloadCndtr (congrArg _ hd)
  | cpar d => exact map_getElem?_setChannel (·.cpar) fun hd => h.cpar (congrArg _ hd)
  | cmar d => exact map_getElem?_setChannel (·.cmar) fun hd => h.cmar (congrArg _ hd)

/-- A write of a channel register keeps every field that its slot update keeps. -/
theorem BlockField.same_of_writeChannel {update : Channel → Channel} (h : writeChannel s c update = .next t)
    (hu : f.KeptIn c (channelAt s c) (update (channelAt s c))) : f.same s t := by
  rcases writeChannel_next h with ⟨-, rfl⟩ | ⟨-, rfl⟩
  · exact BlockField.same_answer.2 (BlockField.same_setChannel hu)
  · exact BlockField.same_answer.2 (f.same_refl s)

/-! ### The writes of channel registers, as slot updates -/

theorem exec_wrCcr (s : State) (c : Nat) (v : Word) :
    exec (.wrCcr c v) s = writeChannel s c fun x => { x with ccr := v } := rfl

theorem exec_wrCndtr (s : State) (c : Nat) (v : Word) :
    exec (.wrCndtr c v) s = writeChannel s c fun x => { x with cndtr := v, reloadCndtr := v } := rfl

theorem exec_wrCpar (s : State) (c : Nat) (v : Word) :
    exec (.wrCpar c v) s = writeChannel s c fun x => { x with cpar := v } := rfl

theorem exec_wrCmar (s : State) (c : Nat) (v : Word) :
    exec (.wrCmar c v) s = writeChannel s c fun x => { x with cmar := v } := rfl

/-! ### Requests -/

/-- A transfer shows in the block's fields only in its own slot. -/
theorem BlockField.same_transferred {x : Channel} {mv : Move} :
    f.same s (transferred c x mv s) ↔ f.same s (setChannel s c (afterElement x)) := by
  cases f <;> simp [BlockField.same, transferred]

/-- A request that is not rejected is a transfer on its channel with whatever flags the channel's CCR has. -/
theorem transferWith_req {flag : Word → Bool} {level : Int} (hc : c < s.channelCount)
    (hr : rejects (channelAt s c) = false) :
    transferWith flag c (.req (c : Int) level) s = flag (channelAt s c).ccr := by
  simp [transferWith, hc, hr]

@[simp] theorem steppedAddress_false (a : Word) : steppedAddress false a = a := rfl

/-- A transfer keeps the fields of its slot that the table does not let it write: CCR and the reload always, an address
register when its increment flag is clear. -/
theorem BlockField.keptIn_afterElement {level : Int} (hc : c < s.channelCount)
    (hr : rejects (channelAt s c) = false) (hm : mayWrite (.req (c : Int) level) s f = false) :
    f.KeptIn c (channelAt s c) (afterElement (channelAt s c)) where
  cndtr hf := by simp [hf, mayWrite, transferWith_req hc hr] at hm
  cpar hf := by
    have hp : ccrPinc (channelAt s c).ccr = false := by
      simpa [hf, mayWrite, transferWith_req hc hr, writesEverything] using hm
    simp [afterElement, hp]
  cmar hf := by
    have hp : ccrMinc (channelAt s c).ccr = false := by
      simpa [hf, mayWrite, transferWith_req hc hr, writesEverything] using hm
    simp [afterElement, hp]

/-- A request keeps every field that the table does not let it write. -/
theorem BlockField.same_of_exec_req {channel level : Int} (h : exec (.req channel level) s = .next t)
    (hm : mayWrite (.req channel level) s f = false) : f.same s t := by
  rcases execReq_next (level := level) h with rfl | ⟨c, _, _, rfl, hc, hr, -, -, -, -, rfl⟩
  · exact BlockField.same_answer.2 (f.same_refl s)
  · exact BlockField.same_transferred.2 (BlockField.same_setChannel (BlockField.keptIn_afterElement hc hr hm))

/-! ### Reset, restore and construction -/

/-- The only fields that an operation which writes every register may not write are the two that construction binds. -/
theorem eq_channelCount_or_accessor_of_writesEverything {i : Instr} (hw : writesEverything i = true)
    (hm : mayWrite i s f = false) : f = .channelCount ∨ f = .accessor := by
  cases f with
  | channelCount => exact .inl rfl
  | accessor => exact .inr rfl
  | _ => simp [mayWrite, hw] at hm

/-- A construction that gives a next state may write every field. -/
theorem mayWrite_cfg {n : Nat} {accessor : Option Accessor} (h : exec (.cfg n accessor) s = .next t) :
    mayWrite (.cfg n accessor) s f = true := by
  obtain ⟨hc, -⟩ := exec_cfg_next h
  cases f with
  | channelCount | accessor => simp [mayWrite, isConstruction, hc]
  | _ => simp [mayWrite, writesEverything]

/-- Reset and restore keep what construction binds. -/
theorem BlockField.same_of_writesEverything {i : Instr} (hw : writesEverything i = true)
    (hi : isConstruction i = false) (h : exec i s = .next t) (hm : mayWrite i s f = false) : f.same s t := by
  obtain ⟨-, hcount, haccessor⟩ := exec_binding hi h
  rcases eq_channelCount_or_accessor_of_writesEverything hw hm with rfl | rfl
  · exact hcount
  · exact haccessor

/-! ### Every operation -/

/-- Settles O21: an operation gives back a value only, stores one global register, replaces one slot, or writes
everything but what construction binds. -/
theorem fieldsAreWrittenOnlyByTheirWriters : Obligations.FieldsAreWrittenOnlyByTheirWriters := by
  intro i s t f h hm
  cases i with
  | rdIsr | rdIfcr | rdCcr | rdCndtr | rdCpar | rdCmar | rdInactive | wrInactive | rdUnknown | wrUnknown | snap =>
    exact BlockField.same_of_only_answers h
  | wrIsr v =>
    cases h
    cases f with
    | isr => simp [mayWrite] at hm
    | _ => rfl
  | wrIfcr v =>
    cases h
    cases f with
    | ifcr => simp [mayWrite] at hm
    | _ => rfl
  | wrCcr c v =>
    rw [exec_wrCcr] at h
    exact BlockField.same_of_writeChannel h { ccr := fun hf => by simp [hf, mayWrite] at hm }
  | wrCndtr c v =>
    rw [exec_wrCndtr] at h
    exact BlockField.same_of_writeChannel h
      { cndtr := fun hf => by simp [hf, mayWrite] at hm
        reloadCndtr := fun hf => by simp [hf, mayWrite] at hm }
  | wrCpar c v =>
    rw [exec_wrCpar] at h
    exact BlockField.same_of_writeChannel h { cpar := fun hf => by simp [hf, mayWrite] at hm }
  | wrCmar c v =>
    rw [exec_wrCmar] at h
    exact BlockField.same_of_writeChannel h { cmar := fun hf => by simp [hf, mayWrite] at hm }
  | req channel level => exact BlockField.same_of_exec_req h hm
  | rst | load => exact BlockField.same_of_writesEverything rfl rfl h hm
  | cfg n accessor => exact absurd hm (by simp [mayWrite_cfg h])

end Sys2Proof.Machine
end

section
/-!
PROOFS. The accesses of the operations to the target space (20_memory.md R67): a request that moves an element makes
three, everything else makes none.
-/

namespace Sys2Proof.Machine

variable {s t : State}

/-- A completed transfer shows the accesses of its moved element. -/
@[simp] theorem transferred_accesses (c : Nat) (x : Channel) (mv : Move) (s : State) :
    (transferred c x mv s).accesses = (moveElement mv s).accesses := rfl

/-- A request on a negative index that gives a next state changed nothing. -/
theorem eq_answer_of_exec_req_neg {channel level : Int} (hneg : channel < 0)
    (h : exec (.req channel level) s = .next t) : t = answer s .none := by
  have hnoop := (execReq_invalid (level := level) (s := s) (.inl hneg)).symm.trans h
  cases hnoop
  rfl

/-- A rejected slot is disabled or at count 0, in the words of the list of slots. -/
theorem disabled_or_done_of_rejects {c : Nat} (hr : rejects (channelAt s c) = true) :
    ∀ x, s.ch[c]? = some x → ccrEn x.ccr = false ∨ x.cndtr = 0 := by
  intro x hx
  rw [channelAt_of_getElem? hx] at hr
  exact rejects_eq_true.1 hr

/-- Settles O27: a request is ignored for its index, rejected by its slot, or transferred with the accesses of
`moveElement`; every other operation stays outside the target space. -/
theorem requestsMakeThreeAccessesInOrder : Obligations.RequestsMakeThreeAccessesInOrder := by
  intro s t
  refine ⟨fun channel level h => ?_, fun i hi h => exec_outside hi h⟩
  rcases lt_or_ge channel 0 with hneg | hnonneg
  · exact .inl ⟨eq_answer_of_exec_req_neg hneg h, .inl hneg⟩
  · lift channel to Nat using hnonneg with c
    rcases exec_req_next h with ⟨ht, hc | hr⟩ | ⟨psize, msize, -, hr, hp, hm, -, -, rfl⟩
    · exact .inl ⟨ht, .inr (.inl (by omega))⟩
    · exact .inl ⟨ht, .inr (.inr (disabled_or_done_of_rejects hr))⟩
    · obtain ⟨hen, hcount⟩ := rejects_eq_false.1 hr
      exact .inr ⟨channelAt s c, psize, msize, _, _, slot_of_accepted hr, hen, hcount, hp, hm,
        (transferred_accesses ..).trans (moveElement_accesses ..)⟩

end Sys2Proof.Machine
end

section
/-!
PROOFS. The registers of a channel, treated alike: the instruction that reads or writes one, the value a slot holds in
it, and what the decoder and the two instructions do with it (40_register_file.md R106 to R113, 30_encoding.md R82).
-/

namespace Sys2Proof

open Machine

/-! ### The four registers of a channel -/

/-- The instruction that reads the register of channel `c`. -/
def ChannelRegister.readInstr (r : ChannelRegister) (c : Nat) : Instr :=
  match r with
  | .ccr => .rdCcr c
  | .cndtr => .rdCndtr c
  | .cpar => .rdCpar c
  | .cmar => .rdCmar c

/-- The instruction that writes `v` to the register of channel `c`. -/
def ChannelRegister.writeInstr (r : ChannelRegister) (c : Nat) (v : Word) : Instr :=
  match r with
  | .ccr => .wrCcr c v
  | .cndtr => .wrCndtr c v
  | .cpar => .wrCpar c v
  | .cmar => .wrCmar c v

/-- What a read of the register shows of a slot. -/
def ChannelRegister.valueIn (r : ChannelRegister) (x : Channel) : Word :=
  match r with
  | .ccr => x.ccr
  | .cndtr => x.cndtr
  | .cpar => x.cpar
  | .cmar => x.cmar

/-- The slot after a write of the register: a write of the count is one of its reload value too (R108). -/
def ChannelRegister.storeIn (r : ChannelRegister) (v : Word) (x : Channel) : Channel :=
  match r with
  | .ccr => { x with ccr := v }
  | .cndtr => { x with cndtr := v, reloadCndtr := v }
  | .cpar => { x with cpar := v }
  | .cmar => { x with cmar := v }

@[simp] theorem ChannelRegister.valueIn_storeIn (r : ChannelRegister) (v : Word) (x : Channel) :
    r.valueIn (r.storeIn v x) = v := by cases r <;> rfl

@[simp] theorem ChannelRegister.valueIn_zero (r : ChannelRegister) : r.valueIn Channel.zero = 0 := by
  cases r <;> rfl

theorem readOf_channel (offset : Word) (c : Nat) (r : ChannelRegister) :
    readOf offset (.channel c r) = r.readInstr c := by cases r <;> rfl

theorem writeOf_channel (offset v : Word) (c : Nat) (r : ChannelRegister) :
    writeOf offset v (.channel c r) = r.writeInstr c v := by cases r <;> rfl

/-! ### Decoding a 4-byte access -/

theorem decode_mmioRead (n : Nat) (offset : Word) :
    decode n (.mmioRead offset 4) = .ok (readOf offset (decodeOffset n offset)) := rfl

theorem decode_mmioWrite (n : Nat) (offset v : Word) :
    decode n (.mmioWrite offset 4 v) = .ok (writeOf offset v (decodeOffset n offset)) := rfl

theorem decodeOffset_isr (n : Nat) : decodeOffset n 0x00#32 = .isr := rfl

theorem decodeOffset_ifcr (n : Nat) : decodeOffset n 0x04#32 = .ifcr := rfl

/-- The registers lie inside their channel's 20-byte block. -/
theorem lt_of_registerAt {k : Nat} {r : ChannelRegister} (h : registerAt k = some r) : k < 20 := by
  unfold registerAt at h
  split_ifs at h <;> omega

/-- The read at the offset of an active channel's register is the read of that register. -/
theorem decode_mmioRead_channelRegister {n c k : Nat} {r : ChannelRegister} (hr : registerAt k = some r)
    (hc : c < n) (h : 8 + 20 * c + k < 2 ^ 32) :
    decode n (.mmioRead (BitVec.ofNat 32 (8 + 20 * c + k)) 4) = .ok (r.readInstr c) := by
  have hd : decodeOffset n (BitVec.ofNat 32 (8 + 20 * c + k)) = .channel c r :=
    decodeOffset_channelOffset hc (lt_of_registerAt hr) hr h
  rw [decode_mmioRead, hd, readOf_channel]

/-- The write at the offset of an active channel's register is the write of that register. -/
theorem decode_mmioWrite_channelRegister {n c k : Nat} {r : ChannelRegister} (v : Word)
    (hr : registerAt k = some r) (hc : c < n) (h : 8 + 20 * c + k < 2 ^ 32) :
    decode n (.mmioWrite (BitVec.ofNat 32 (8 + 20 * c + k)) 4 v) = .ok (r.writeInstr c v) := by
  have hd : decodeOffset n (BitVec.ofNat 32 (8 + 20 * c + k)) = .channel c r :=
    decodeOffset_channelOffset hc (lt_of_registerAt hr) hr h
  rw [decode_mmioWrite, hd, writeOf_channel]

end Sys2Proof

namespace Sys2Proof.Machine

variable {s t : State} {c : Nat} {x : Channel}

/-! ### Reading and writing a register of an active channel -/

theorem exec_readInstr (s : State) (c : Nat) (r : ChannelRegister) :
    exec (r.readInstr c) s = readChannel s c r.valueIn := by cases r <;> rfl

theorem exec_writeInstr (s : State) (c : Nat) (r : ChannelRegister) (v : Word) :
    exec (r.writeInstr c v) s = writeChannel s c (r.storeIn v) := by cases r <;> rfl

theorem exec_readInstr_active (r : ChannelRegister) (hc : c < s.channelCount) (hx : s.ch[c]? = some x) :
    exec (r.readInstr c) s = .next (answer s (.word (r.valueIn x))) := by
  rw [exec_readInstr, readChannel_active hc hx]

theorem exec_writeInstr_active (r : ChannelRegister) (v : Word) (hc : c < s.channelCount)
    (hx : s.ch[c]? = some x) :
    exec (r.writeInstr c v) s = .next (answer (setChannel s c (r.storeIn v x)) .none) := by
  rw [exec_writeInstr, writeChannel_active hc hx]

/-! ### Slot `c` after an update of the slots -/

theorem getElem?_setChannel_self {y : Channel} (hx : s.ch[c]? = some x) :
    (setChannel s c y).ch[c]? = some y := by
  rw [setChannel_ch, List.getElem?_set_self (List.getElem?_eq_some_iff.1 hx).1]

theorem getElem?_loadRecord (r : List Word) (hx : s.ch[c]? = some x) :
    (loadRecord s r).ch[c]? = some (channelOfRecord r c) := by
  rw [loadRecord_ch, List.getElem?_map, List.getElem?_range (List.getElem?_eq_some_iff.1 hx).1, Option.map_some]

theorem getElem?_clearRegisters (hx : s.ch[c]? = some x) : (clearRegisters s).ch[c]? = some Channel.zero := by
  rw [clearRegisters_ch, List.getElem?_map, hx, Option.map_some]

/-- A request on any input leaves every slot's CCR as it was (R107). -/
theorem exec_req_slot_ccr {channel level : Int} (h : exec (.req channel level) s = .next t)
    (hx : s.ch[c]? = some x) : ∃ y, t.ch[c]? = some y ∧ y.ccr = x.ccr := by
  rcases exec_req_slot h hx with hy | ⟨-, hy⟩
  · exact ⟨x, hy, rfl⟩
  · exact ⟨afterElement x, hy, rfl⟩

/-! ### A register read after each operation that may write it -/

/-- A register just written reads as the value written. -/
theorem exec_readInstr_of_writeInstr {r : ChannelRegister} {v : Word} (hc : c < s.channelCount)
    (hx : s.ch[c]? = some x) (h : exec (r.writeInstr c v) s = .next t) :
    exec (r.readInstr c) t = .next (answer t (.word v)) := by
  rw [exec_writeInstr_active r v hc hx] at h
  cases h
  have hread := exec_readInstr_active (s := answer (setChannel s c (r.storeIn v x)) .none) r hc
    (getElem?_setChannel_self hx)
  rwa [ChannelRegister.valueIn_storeIn] at hread

/-- After a restore a register reads as the record's slot has it. -/
theorem exec_readInstr_of_load (r : ChannelRegister) {record : List Word} (hc : c < s.channelCount)
    (hx : s.ch[c]? = some x) (h : exec (.load record) s = .next t) :
    exec (r.readInstr c) t = .next (answer t (.word (r.valueIn (channelOfRecord record c)))) := by
  obtain ⟨-, -, rfl⟩ := exec_load_next h
  exact exec_readInstr_active r hc (getElem?_loadRecord record hx)

/-- After a reset every register of a channel reads 0. -/
theorem exec_readInstr_of_rst (r : ChannelRegister) (hc : c < s.channelCount) (hx : s.ch[c]? = some x)
    (h : exec .rst s = .next t) : exec (r.readInstr c) t = .next (answer t (.word 0)) := by
  cases h
  have hread := exec_readInstr_active (s := answer (clearRegisters s) .none) r hc (getElem?_clearRegisters hx)
  rwa [ChannelRegister.valueIn_zero] at hread

/-- CCR reads the same after any request. -/
theorem exec_rdCcr_of_req {channel level : Int} (hc : c < s.channelCount) (hx : s.ch[c]? = some x)
    (h : exec (.req channel level) s = .next t) : exec (.rdCcr c) t = .next (answer t (.word x.ccr)) := by
  obtain ⟨-, -, -, hcount, -⟩ := exec_req_frame h
  obtain ⟨y, hy, hccr⟩ := exec_req_slot_ccr h hx
  rw [← hccr]
  exact exec_readInstr_active .ccr (hcount ▸ hc) hy

/-- Settles O5: every operation that may write CCR leaves a slot whose CCR is the value named, and a request leaves
the CCR it met. -/
theorem rdCcrReturnsStoredWord : Obligations.RdCcrReturnsStoredWord := fun _ _ _ hc hx =>
  ⟨decode_mmioRead_channelRegister (r := .ccr) rfl hc,
   exec_readInstr_active .ccr hc hx,
   fun _ _ h => exec_readInstr_of_writeInstr (r := .ccr) hc hx h,
   fun _ _ h => exec_readInstr_of_load .ccr hc hx h,
   fun _ h => exec_readInstr_of_rst .ccr hc hx h,
   fun _ _ _ h => exec_rdCcr_of_req hc hx h⟩

/-! ### The count, and requests after a write of 0 -/

/-- An operation that leaves the state as it is may run any number of times. -/
theorem runAll_replicate_of_fixed {i : Instr} (h : exec i s = .next s) (k : Nat) :
    runAll (List.replicate k i) s = .next s := by
  induction k with
  | zero => rfl
  | succ k ih => simp only [List.replicate_succ, runAll, h, ih]

/-- After a write of 0 to the count, a request on the channel leaves the whole state as it is. -/
theorem exec_req_of_wrCndtr_zero {level : Int} (hc : c < s.channelCount) (hx : s.ch[c]? = some x)
    (h : exec (.wrCndtr c 0) s = .next t) : exec (.req (c : Int) level) t = .next t := by
  have hw := (exec_writeInstr_active .cndtr 0 hc hx).symm.trans h
  cases hw
  exact exec_req_of_rejects level hc (getElem?_setChannel_self hx) (rejects_eq_true.2 (.inr rfl))

/-- Settles O8: the write stores both counts, and at count 0 a request is rejected without a trace. -/
theorem wrCndtrStoresCountAndReload : Obligations.WrCndtrStoresCountAndReload := fun _ _ _ v hc hx =>
  ⟨decode_mmioWrite_channelRegister (r := .cndtr) v rfl hc,
   exec_writeInstr_active .cndtr v hc hx,
   fun k _ _ h => runAll_replicate_of_fixed (exec_req_of_wrCndtr_zero hc hx h) k⟩

/-! ### The other registers of a channel -/

/-- Settles O6: the write is a slot update of CCR alone. -/
theorem wrCcrStoresEveryBitAndStartsNothing : Obligations.WrCcrStoresEveryBitAndStartsNothing :=
  fun _ _ _ v hc hx =>
    ⟨decode_mmioWrite_channelRegister (r := .ccr) v rfl hc, exec_writeInstr_active .ccr v hc hx⟩

/-- Settles O7: the read shows the slot's count. -/
theorem rdCndtrReturnsRemainingCount : Obligations.RdCndtrReturnsRemainingCount := fun _ _ _ hc hx =>
  ⟨decode_mmioRead_channelRegister (r := .cndtr) rfl hc, exec_readInstr_active .cndtr hc hx⟩

/-- Settles O9: the read shows the slot's peripheral address. -/
theorem rdCparReturnsUnmaskedRegister : Obligations.RdCparReturnsUnmaskedRegister := fun _ _ _ hc hx =>
  ⟨decode_mmioRead_channelRegister (r := .cpar) rfl hc, exec_readInstr_active .cpar hc hx⟩

/-- Settles O10: the write is a slot update of CPAR alone. -/
theorem wrCparStoresUnmasked : Obligations.WrCparStoresUnmasked := fun _ _ _ v hc hx =>
  ⟨decode_mmioWrite_channelRegister (r := .cpar) v rfl hc, exec_writeInstr_active .cpar v hc hx⟩

/-- Settles O11: the read shows the slot's memory address. -/
theorem rdCmarReturnsUnmaskedRegister : Obligations.RdCmarReturnsUnmaskedRegister := fun _ _ _ hc hx =>
  ⟨decode_mmioRead_channelRegister (r := .cmar) rfl hc, exec_readInstr_active .cmar hc hx⟩

/-- Settles O12: the write is a slot update of CMAR alone. -/
theorem wrCmarStoresUnmasked : Obligations.WrCmarStoresUnmasked := fun _ _ _ v hc hx =>
  ⟨decode_mmioWrite_channelRegister (r := .cmar) v rfl hc, exec_writeInstr_active .cmar v hc hx⟩

end Sys2Proof.Machine
end

section
/-!
PROOFS. The global registers, the inactive offsets, and a whole step on a 4-byte access (40_register_file.md R100 to
R105, R114, R115).
-/

namespace Sys2Proof.Machine

variable {s t : State}

/-! ### The operations without a channel register -/

theorem exec_rdIsr (s : State) : exec .rdIsr s = .next (answer s (.word s.isr)) := rfl

theorem exec_wrIsr (s : State) (v : Word) : exec (.wrIsr v) s = .next (answer { s with isr := v } .none) := rfl

theorem exec_rdIfcr (s : State) : exec .rdIfcr s = .next (answer s (.word s.ifcr)) := rfl

theorem exec_wrIfcr (s : State) (v : Word) : exec (.wrIfcr v) s = .next (answer { s with ifcr := v } .none) := rfl

theorem exec_rdInactive (s : State) (offset : Word) : exec (.rdInactive offset) s = .next (answer s (.word 0)) := rfl

theorem exec_wrInactive (s : State) (offset v : Word) : exec (.wrInactive offset v) s = .next (answer s .none) := rfl

theorem exec_rdUnknown (s : State) (offset : Word) : exec (.rdUnknown offset) s = .next (answer s (.word 0)) := rfl

theorem exec_wrUnknown (s : State) (offset v : Word) : exec (.wrUnknown offset v) s = .next (answer s .none) := rfl

/-- RD ISR shows whatever `isr` is known to be. -/
theorem exec_rdIsr_of_eq {v : Word} (h : t.isr = v) : exec .rdIsr t = .next (answer t (.word v)) := by
  rw [exec_rdIsr, h]

/-- Settles O1: WR ISR, restore and reset each set `isr` to the value named, and a request keeps it. -/
theorem rdIsrReturnsLastStoredValue : Obligations.RdIsrReturnsLastStoredValue := by
  intro s n
  refine ⟨by rw [decode_mmioRead, decodeOffset_isr, readOf], exec_rdIsr s, fun v t h => ?_, fun r t h => ?_,
    fun t h => ?_, fun channel level t h => ?_⟩
  · cases h
    exact exec_rdIsr_of_eq rfl
  · obtain ⟨-, -, rfl⟩ := exec_load_next h
    exact exec_rdIsr_of_eq rfl
  · cases h
    exact exec_rdIsr_of_eq rfl
  · obtain ⟨-, hisr, -⟩ := exec_req_frame h
    exact exec_rdIsr_of_eq hisr

/-- Settles O2: the offset 0 names `isr`, and the write stores there alone. -/
theorem wrIsrStoresEveryBit : Obligations.WrIsrStoresEveryBit := fun s n v =>
  ⟨by rw [decode_mmioWrite, decodeOffset_isr, writeOf], exec_wrIsr s v⟩

/-- Settles O3: the offset 4 names `ifcr`, which a write has set to its value. -/
theorem rdIfcrReturnsStoredValue : Obligations.RdIfcrReturnsStoredValue := by
  intro s n
  refine ⟨by rw [decode_mmioRead, decodeOffset_ifcr, readOf], exec_rdIfcr s, fun v t h => ?_⟩
  cases h
  exact exec_rdIfcr _

/-- Settles O4: the write stores in `ifcr` alone, so a second write replaces the first. -/
theorem wrIfcrStoresAndClearsNothing : Obligations.WrIfcrStoresAndClearsNothing := by
  intro s n v
  refine ⟨by rw [decode_mmioWrite, decodeOffset_ifcr, writeOf], exec_wrIfcr s v, fun w t h => ?_⟩
  cases h
  exact exec_wrIfcr _ v

/-- Settles O13: the decoder tests the index before the sub-offset, and neither instruction looks at the slot. -/
theorem inactiveOffsetsReadZeroAndIgnoreWrites : Obligations.InactiveOffsetsReadZeroAndIgnoreWrites := by
  intro s offset v h₈ hn
  have hd : decodeOffset s.channelCount offset = .inactive ((offset.toNat - 8) / 20) :=
    decodeOffset_of_inactive (by simp [offsetIsInactive, h₈, hn])
  exact ⟨by rw [decode_mmioRead, hd, readOf], by rw [decode_mmioWrite, hd, writeOf],
    exec_rdInactive s offset, exec_wrInactive s offset v⟩

/-! ### A step on a 4-byte access -/

/-- On a block that exists, a step runs what the next operation decodes to. -/
theorem step_of_decode {o : Operation} {i : Instr} {rest : List Event} (hs : s.constructed = true)
    (hin : s.input = .operation o :: rest) (hd : decode s.channelCount o = .ok i) :
    step s = exec i { s with input := rest } := by
  simp [step, takeEvent, hin, hd, admits, hs]

theorem step_mmioRead {offset : Word} {target : Target} {rest : List Event} (hs : s.constructed = true)
    (hin : s.input = .operation (.mmioRead offset 4) :: rest) (h : decodeOffset s.channelCount offset = target) :
    step s = exec (readOf offset target) { s with input := rest } :=
  step_of_decode hs hin (by rw [decode_mmioRead, h])

theorem step_mmioWrite {offset v : Word} {target : Target} {rest : List Event} (hs : s.constructed = true)
    (hin : s.input = .operation (.mmioWrite offset 4 v) :: rest)
    (h : decodeOffset s.channelCount offset = target) :
    step s = exec (writeOf offset v target) { s with input := rest } :=
  step_of_decode hs hin (by rw [decode_mmioWrite, h])

/-- What a read of the target shows of the block: 0 where no register is (R100, R115, R117). -/
def targetValue (s : State) : Target → Word
  | .isr => s.isr
  | .ifcr => s.ifcr
  | .channel c r => if c < s.channelCount then r.valueIn (channelAt s c) else 0
  | .inactive _ => 0
  | .unknown => 0

theorem exec_readOf (s : State) (offset : Word) (target : Target) :
    exec (readOf offset target) s = .next (answer s (.word (targetValue s target))) := by
  cases target with
  | isr => exact exec_rdIsr s
  | ifcr => exact exec_rdIfcr s
  | channel c r => rw [readOf_channel, exec_readInstr]; rfl
  | inactive c => exact exec_rdInactive s offset
  | unknown => exact exec_rdUnknown s offset

/-- An offset that decodes to a channel register shows the slot's value there: its channel is active. -/
theorem targetValue_of_decodeOffset_channel {offset : Word} {c : Nat} {r : ChannelRegister} {x : Channel}
    (hx : s.ch[c]? = some x) (h : decodeOffset s.channelCount offset = .channel c r) :
    targetValue s (decodeOffset s.channelCount offset) = r.valueIn x := by
  rw [h, targetValue, if_pos (lt_of_decodeOffset_channel h), channelAt_of_getElem? hx]

/-- Settles O16: the step is the decoded read, which answers with the target's value. -/
theorem mmioReadReturnsDecodedRegister : Obligations.MmioReadReturnsDecodedRegister := by
  intro s offset rest hs hin
  have hstep := (step_mmioRead hs hin rfl).trans (exec_readOf ..)
  refine ⟨targetValue s (decodeOffset s.channelCount offset), hstep, congrArg (targetValue s),
    congrArg (targetValue s), fun c x hx => ?_, fun c => congrArg (targetValue s), congrArg (targetValue s)⟩
  exact ⟨targetValue_of_decodeOffset_channel hx, targetValue_of_decodeOffset_channel hx,
    targetValue_of_decodeOffset_channel hx, targetValue_of_decodeOffset_channel hx⟩

/-- A 4-byte write that decodes to a channel register replaces that channel's slot and nothing else. -/
theorem step_mmioWrite_channel {offset v : Word} {rest : List Event} {c : Nat} {r : ChannelRegister} {x : Channel}
    (hs : s.constructed = true) (hin : s.input = .operation (.mmioWrite offset 4 v) :: rest)
    (hx : s.ch[c]? = some x) (h : decodeOffset s.channelCount offset = .channel c r) :
    step s = .next (answer (setChannel { s with input := rest } c (r.storeIn v x)) .none) := by
  rw [step_mmioWrite hs hin h, writeOf_channel]
  exact exec_writeInstr_active r v (lt_of_decodeOffset_channel h) hx

/-- Settles O17: the step is the decoded write, by the target it stores in. -/
theorem mmioWriteStoresInDecodedRegister : Obligations.MmioWriteStoresInDecodedRegister := fun _ offset v _ hs hin =>
  ⟨fun h => (step_mmioWrite hs hin h).trans (exec_wrIsr _ v),
   fun h => (step_mmioWrite hs hin h).trans (exec_wrIfcr _ v),
   fun _ _ hx =>
    ⟨step_mmioWrite_channel (r := .ccr) hs hin hx, step_mmioWrite_channel (r := .cndtr) hs hin hx,
     step_mmioWrite_channel (r := .cpar) hs hin hx, step_mmioWrite_channel (r := .cmar) hs hin hx⟩,
   fun _ h => (step_mmioWrite hs hin h).trans (exec_wrInactive _ offset v),
   fun h => (step_mmioWrite hs hin h).trans (exec_wrUnknown _ offset v)⟩

end Sys2Proof.Machine
end

section
/-!
PROOFS. The request router (41_request_router.md R132, R133): an invalid index is ignored, and a request's level is
not looked at.
-/

namespace Sys2Proof.Machine

/-- Settles O22: the router answers an invalid index before the engine runs. -/
theorem requestWithInvalidIndexIsIgnored : Obligations.RequestWithInvalidIndexIsIgnored :=
  fun _ _ level h => execReq_invalid (level := level) h

/-- Any level may stand in for any other. -/
theorem exec_req_level (channel level level' : Int) (s : State) :
    exec (.req channel level) s = exec (.req channel level') s := rfl

/-- A run of requests on one input depends on their number alone. -/
theorem runAll_req_levels (channel level' : Int) (levels : List Int) (s : State) :
    runAll (levels.map (.req channel)) s = runAll (List.replicate levels.length (.req channel level')) s := by
  induction levels generalizing s with
  | nil => rfl
  | cons level levels ih =>
    simp only [List.map_cons, List.length_cons, List.replicate_succ, runAll, exec_req_level channel level level', ih]

/-- Settles O23: one request does not heed its level, and so neither does a run of them. -/
theorem everyInvocationIsOneRequestWhateverItsLevel : Obligations.EveryInvocationIsOneRequestWhateverItsLevel :=
  fun s channel level level' levels => ⟨exec_req_level channel level level' s, runAll_req_levels channel 1 levels s⟩

end Sys2Proof.Machine
end

section
/-!
PROOFS. The narrow merge byte by byte (42_transfer_engine.md R148): a lane of the merged window is the destination's
where the destination's element does not reach, joined with the source's where the source's element does.
-/

namespace Sys2Proof.Machine

/-- The number of bytes of an element (30_encoding.md R89). -/
def ElemSize.bytes : ElemSize → Nat
  | .byte => 1
  | .halfword => 2
  | .word => 4

theorem laneOf_and (v w : Word) (i : Nat) : laneOf (v &&& w) i = laneOf v i &&& laneOf w i :=
  BitVec.extractLsb'_and

theorem laneOf_or (v w : Word) (i : Nat) : laneOf (v ||| w) i = laneOf v i ||| laneOf w i :=
  BitVec.extractLsb'_or

theorem laneOf_not (v : Word) {i : Nat} (hi : i < 4) : laneOf (~~~v) i = ~~~laneOf v i := by
  ext j hj
  have hbit : 8 * i + j < 32 := by omega
  simp [laneOf, hbit]

/-- The data mask of a size covers the lanes of its element, each whole. -/
theorem laneOf_dmask (size : ElemSize) {i : Nat} (hi : i < 4) :
    laneOf (dmask size) i = if i < size.bytes then BitVec.allOnes 8 else 0#8 := by
  interval_cases i <;> cases size <;> decide

/-- Each lane of the merged window: the element's lanes of the destination are cleared by the destination's size, the
element's lanes of the source are joined in by the source's size. -/
theorem laneOf_merge (d s : Word) (dsize ssize : ElemSize) {i : Nat} (hi : i < 4) :
    laneOf (merge d dsize s ssize) i =
      (if i < dsize.bytes then 0#8 else laneOf d i) ||| (if i < ssize.bytes then laneOf s i else 0#8) := by
  rw [merge, laneOf_or, laneOf_and, laneOf_and, laneOf_not _ hi, laneOf_dmask dsize hi, laneOf_dmask ssize hi]
  split <;> split <;> simp only [BitVec.and_allOnes, BitVec.not_allOnes, BitVec.and_zero, BitVec.not_zero]

/-- Settles O30: each lane's row of the table is `laneOf_merge` at the two sizes. -/
theorem narrowMergeFollowsTheTable : Obligations.NarrowMergeFollowsTheTable := by
  intro s d ssize dsize
  have hlane (i : Nat) (hi : i < 4) := laneOf_merge d s dsize ssize hi
  refine ⟨rfl, (hlane 0 (by decide)).trans ?_, (hlane 1 (by decide)).trans ?_, (hlane 2 (by decide)).trans ?_,
    (hlane 3 (by decide)).trans ?_⟩
  all_goals cases ssize <;> cases dsize <;> simp [ElemSize.bytes]

end Sys2Proof.Machine
end

section
/-!
PROOFS. The count of a channel (42_transfer_engine.md R141, R152): a count of 0 or EN = 0 rejects the request, an
element moved takes 1 from the count, and the count that reaches 0 is reloaded in circular mode.
-/

namespace Sys2Proof.Machine

variable {s t : State} {c : Nat} {x : Channel} {level : Int}

/-- Settles O25: the request is rejected before the size codes are looked at. -/
theorem rejectedRequestIsACompleteNoOp : Obligations.RejectedRequestIsACompleteNoOp :=
  fun _ _ level _ hc hx hrej => exec_req_of_rejects level hc hx (rejects_eq_true.2 hrej)

/-! ### The count after an element -/

/-- A count that does not reach 0 is one less, in circular mode too. -/
theorem steppedCount_of_two_le (h : 2 ≤ x.cndtr.toNat) : (steppedCount x).toNat + 1 = x.cndtr.toNat := by
  have hsub : (x.cndtr - 1).toNat + 1 = x.cndtr.toNat := by bv_omega
  have hne : x.cndtr - 1 ≠ 0 := by bv_omega
  rw [steppedCount, if_neg fun hzero => hne hzero.1, hsub]

/-- A count that reaches 0 is reloaded in circular mode and stays 0 without it. -/
theorem steppedCount_of_eq_one (h : x.cndtr.toNat = 1) :
    steppedCount x = if ccrCirc x.ccr then x.reloadCndtr else 0 := by
  have hzero : x.cndtr - 1 = 0 := by bv_omega
  rw [steppedCount, hzero]
  simp

/-! ### The request that moved an element -/

/-- A request that made an access was not rejected, and stepped its channel's slot by one element. -/
theorem exec_req_slot_of_accesses (hx : s.ch[c]? = some x) (h : exec (.req (c : Int) level) s = .next t)
    (ha : t.accesses ≠ []) : x.cndtr ≠ 0 ∧ t.ch[c]? = some (afterElement x) := by
  rcases exec_req_next h with ⟨rfl, -⟩ | ⟨_, _, -, hr, -, -, -, -, rfl⟩
  · exact absurd (answer_accesses s .none) ha
  · have hcx := channelAt_of_getElem? hx
    rw [hcx] at hr ⊢
    exact ⟨(rejects_eq_false.1 hr).2, getElem?_setChannel_self (by rwa [moveElement_ch])⟩

/-- Settles O32: the slot after the request is `afterElement`, whose count is `steppedCount`; a request that meets a
count of 0 is rejected (R141). -/
theorem countDecrementsAndReloads : Obligations.CountDecrementsAndReloads := by
  intro s t c level x hc hx h ha
  obtain ⟨hcount, hy⟩ := exec_req_slot_of_accesses hx h ha
  obtain ⟨-, -, -, hchannels, -⟩ := exec_req_frame h
  refine ⟨afterElement x, hy, rfl, rfl, by bv_omega, steppedCount_of_two_le,
    fun hone hcirc => (steppedCount_of_eq_one hone).trans (if_pos hcirc),
    fun hone hcirc => (steppedCount_of_eq_one hone).trans (if_neg (by simp [hcirc])), fun hzero level' => ?_⟩
  exact rejectedRequestIsACompleteNoOp t c level' _ (hchannels ▸ hc) hy (.inr hzero)

end Sys2Proof.Machine
end

section
/-!
PROOFS. The life of a block (43_lifecycle.md R171): what construction binds is an invariant of the steps, and so of
every run; a second construction has no step.
-/

namespace Sys2Proof.Machine

/-! ### Runs -/

/-- A run of `k + 1` steps that does not stop is a step and a run of `k` steps. -/
theorem run_succ_next {M : Host.Core} {s t : M.State} {k : Nat} (h : M.run (k + 1) s = .next t) :
    ∃ u, M.step s = .next u ∧ M.run k u = .next t := by
  rw [Host.Core.run] at h
  split at h
  · next u hu => exact ⟨u, hu, h⟩
  all_goals cases h

/-- What every step keeps, every run keeps. -/
theorem run_keeps {M : Host.Core} {P : M.State → Prop} (hstep : ∀ s t, P s → M.step s = .next t → P t)
    {s t : M.State} {k : Nat} (hs : P s) (h : M.run k s = .next t) : P t := by
  induction k generalizing s with
  | zero => cases h; exact hs
  | succ k ih =>
    obtain ⟨u, hu, hrun⟩ := run_succ_next h
    exact ih (hstep s u hs hu) hrun

/-! ### The binding of a block -/

variable {s t : State} {n slots : Nat} {a : Accessor}

/-- The block exists, with `n` active channels, the accessor `a` and `slots` slots. -/
structure State.Bound (n : Nat) (a : Accessor) (slots : Nat) (s : State) : Prop where
  constructed : s.constructed = true
  channelCount : s.channelCount = n
  accessor : s.accessor = a
  length : s.ch.length = slots

/-- An operation that completes on a block that exists is no construction. -/
theorem isConstruction_of_exec_next {i : Instr} (hs : s.constructed = true) (h : exec i s = .next t) :
    isConstruction i = false := by
  cases i with
  | cfg m accessor => rw [exec_cfg_of_constructed hs] at h; cases h
  | _ => rfl

/-- Every operation keeps the binding. -/
theorem exec_keeps_bound {i : Instr} (hs : s.Bound n a slots) (h : exec i s = .next t) : t.Bound n a slots := by
  obtain ⟨hconstructed, hcount, haccessor⟩ := exec_binding (isConstruction_of_exec_next hs.constructed h) h
  exact ⟨hconstructed.trans hs.constructed, hcount.trans hs.channelCount, haccessor.trans hs.accessor,
    (exec_length h).trans hs.length⟩

/-- Every step keeps the binding, an idle one and another agent's store included. -/
theorem step_keeps_bound (hs : s.Bound n a slots) (h : step s = .next t) : t.Bound n a slots := by
  have htaken (rest : List Event) : State.Bound n a slots { s with input := rest } := { hs with }
  rcases step_next h with ⟨-, rfl⟩ | ⟨_, _, rest, -, rfl⟩ | ⟨_, rest, _, -, -, -, hexec⟩
  · exact hs
  · exact { htaken rest with }
  · exact exec_keeps_bound (htaken rest) hexec

/-- The step on a second construction is refused, whatever its operands (R171, R176). -/
theorem step_construct_of_constructed {m : Nat} {accessor : Option Accessor} {rest : List Event}
    (hs : s.constructed = true) (hin : s.input = .operation (.construct m accessor) :: rest) :
    step s = .refused .alreadyConstructed :=
  (step_of_decode hs hin rfl).trans (exec_cfg_of_constructed hs)

/-- Settles O59: the binding is an invariant of the run, and the block that exists at its end refuses a construction. -/
theorem channelCountAndAccessorAreFixedForLife : Obligations.ChannelCountAndAccessorAreFixedForLife := by
  intro s t k hs h
  have hstart : s.Bound s.channelCount s.accessor s.ch.length := ⟨hs, rfl, rfl, rfl⟩
  obtain ⟨hconstructed, hcount, haccessor, hlength⟩ := run_keeps (fun _ _ => step_keeps_bound) hstart h
  refine ⟨hconstructed, hcount, haccessor, hlength, fun n acc rest u hin hnext => ?_⟩
  rw [step_construct_of_constructed hconstructed hin] at hnext
  cases hnext

end Sys2Proof.Machine
end

section
/-!
PROOFS. Reset (70_reset_and_hazards.md R220, R221): the whole state it leaves, every slot included.
-/

namespace Sys2Proof.Machine

/-- Reset writes the two global registers and every slot, active or not, and no other field. -/
theorem clearRegisters_eq (s : State) :
    clearRegisters s = { s with isr := 0, ifcr := 0, ch := List.replicate s.ch.length Channel.zero } := by
  rw [← clearRegisters_slots]
  rfl

/-- RST completes on every state, and shows that it gave back nothing and made no access. -/
theorem exec_rst (s : State) : exec .rst s = .next (answer (clearRegisters s) .none) := rfl

/-- Settles O41: RST answers `clearRegisters`, whose slots are all `Channel.zero` whatever the channel count. -/
theorem resetClearsEveryRegister : Obligations.ResetClearsEveryRegister := by
  intro s n
  refine ⟨rfl, ?_⟩
  rw [exec_rst, clearRegisters_eq]
  rfl

end Sys2Proof.Machine
end

section
/-!
PROOFS. The encoding (30_encoding.md sections 1 and 2): what a target says of the offset it was decoded from, and from
it both round trips between instructions and operations.
-/

namespace Sys2Proof

variable {n : Nat} {offset : Word}

/-! ### From an instruction to its operation and back -/

theorem channelRegisterWellFormed_iff {c k : Nat} :
    channelRegisterWellFormed n c k = true ↔ c < n ∧ 8 + 20 * c + k < 2 ^ 32 := by
  simp [channelRegisterWellFormed]

/-- The read at a well-formed offset of a channel register decodes to the read of that register. -/
theorem decode_mmioRead_of_wellFormed {c k : Nat} {r : ChannelRegister} (hr : registerAt k = some r)
    (h : channelRegisterWellFormed n c k = true) :
    decode n (.mmioRead (channelOffset c k) 4) = .ok (r.readInstr c) := by
  obtain ⟨hc, hlt⟩ := channelRegisterWellFormed_iff.1 h
  exact decode_mmioRead_channelRegister hr hc hlt

/-- The write at a well-formed offset of a channel register decodes to the write of that register. -/
theorem decode_mmioWrite_of_wellFormed {c k : Nat} {r : ChannelRegister} (v : Word) (hr : registerAt k = some r)
    (h : channelRegisterWellFormed n c k = true) :
    decode n (.mmioWrite (channelOffset c k) 4 v) = .ok (r.writeInstr c v) := by
  obtain ⟨hc, hlt⟩ := channelRegisterWellFormed_iff.1 h
  exact decode_mmioWrite_channelRegister v hr hc hlt

/-- Settles O56: well-formedness is what the decoder's test on the offset asks of each row. -/
theorem decodeOfEncodeIsTheInstruction : Obligations.DecodeOfEncodeIsTheInstruction := by
  intro n i h
  cases i with
  | rdIsr | wrIsr | rdIfcr | wrIfcr | req | rst | cfg | snap | load => rfl
  | rdCcr c => exact decode_mmioRead_of_wellFormed (r := .ccr) rfl h
  | wrCcr c v => exact decode_mmioWrite_of_wellFormed (r := .ccr) v rfl h
  | rdCndtr c => exact decode_mmioRead_of_wellFormed (r := .cndtr) rfl h
  | wrCndtr c v => exact decode_mmioWrite_of_wellFormed (r := .cndtr) v rfl h
  | rdCpar c => exact decode_mmioRead_of_wellFormed (r := .cpar) rfl h
  | wrCpar c v => exact decode_mmioWrite_of_wellFormed (r := .cpar) v rfl h
  | rdCmar c => exact decode_mmioRead_of_wellFormed (r := .cmar) rfl h
  | wrCmar c v => exact decode_mmioWrite_of_wellFormed (r := .cmar) v rfl h
  | rdInactive offset => rw [encode, decode_mmioRead, decodeOffset_of_inactive h, readOf]
  | wrInactive offset v => rw [encode, decode_mmioWrite, decodeOffset_of_inactive h, writeOf]
  | rdUnknown offset => rw [encode, decode_mmioRead, decodeOffset_of_unknown h, readOf]
  | wrUnknown offset v => rw [encode, decode_mmioWrite, decodeOffset_of_unknown h, writeOf]

/-! ### From an operation to its instruction and back -/

/-- The sub-offset of a register in its channel's block (30_encoding.md R82). -/
def ChannelRegister.subOffset : ChannelRegister → Nat
  | .ccr => 0
  | .cndtr => 4
  | .cpar => 8
  | .cmar => 12

theorem eq_subOffset_of_registerAt {k : Nat} {r : ChannelRegister} (h : registerAt k = some r) : k = r.subOffset := by
  unfold registerAt at h
  split_ifs at h <;> cases h <;> assumption

theorem not_mem_of_registerAt_none {k : Nat} (h : registerAt k = none) : k ∉ [0, 4, 8, 12] := by
  intro hk
  simp only [List.mem_cons, List.not_mem_nil, or_false] at hk
  rcases hk with rfl | rfl | rfl | rfl <;> cases h

/-- What it means for an offset to name the target on a block with `n` active channels, by the register map
(30_encoding.md R87) and the well-formedness of the rows. -/
def Target.NamedBy (n : Nat) (offset : Word) : Target → Prop
  | .isr => offset = 0x00#32
  | .ifcr => offset = 0x04#32
  | .channel c r => channelRegisterWellFormed n c r.subOffset = true ∧ offset = channelOffset c r.subOffset
  | .inactive _ => offsetIsInactive n offset = true
  | .unknown => offsetIsUnknown n offset = true

/-- An offset past the global registers, whose index and sub-offset are an active channel's register. -/
theorem namedBy_channel {r : ChannelRegister} (h₈ : 8 ≤ offset.toNat) (hc : (offset.toNat - 8) / 20 < n)
    (hr : registerAt ((offset.toNat - 8) % 20) = some r) :
    (Target.channel ((offset.toNat - 8) / 20) r).NamedBy n offset := by
  have hsum : 8 + 20 * ((offset.toNat - 8) / 20) + r.subOffset = offset.toNat := by
    rw [← eq_subOffset_of_registerAt hr]
    omega
  refine ⟨channelRegisterWellFormed_iff.2 ⟨hc, hsum.trans_lt offset.isLt⟩, ?_⟩
  rw [channelOffset, hsum, BitVec.ofNat_toNat, BitVec.setWidth_eq]

/-- Every offset names the target it decodes to. -/
theorem namedBy_decodeOffset (n : Nat) (offset : Word) : (decodeOffset n offset).NamedBy n offset := by
  unfold decodeOffset
  split_ifs with h₀ h₄ h₈ hn
  · exact BitVec.eq_of_toNat_eq h₀
  · exact BitVec.eq_of_toNat_eq h₄
  · have hmem : offset.toNat ∈ [1, 2, 3, 5, 6, 7] := by
      simp only [List.mem_cons, List.not_mem_nil, or_false]
      omega
    simp only [Target.NamedBy, offsetIsUnknown, List.contains_iff_mem.2 hmem, Bool.true_or]
  · simp [Target.NamedBy, offsetIsInactive, hn, not_lt.1 h₈]
  · split
    · exact namedBy_channel (by omega) (by omega) ‹_›
    · have hk := not_mem_of_registerAt_none ‹_›
      simp only [List.mem_cons, List.not_mem_nil, or_false, not_or] at hk
      simp [Target.NamedBy, offsetIsUnknown, not_lt.1 h₈, not_le.1 hn, hk]

/-- The read of a target is well formed and is encoded as the access at the offset that names it. -/
theorem encode_readOf {target : Target} (h : target.NamedBy n offset) :
    (readOf offset target).wellFormed n = true ∧ encode (readOf offset target) = .mmioRead offset 4 := by
  cases target with
  | isr | ifcr => cases h; exact ⟨rfl, rfl⟩
  | channel c r =>
    obtain ⟨hwf, rfl⟩ := h
    cases r <;> exact ⟨hwf, rfl⟩
  | inactive | unknown => exact ⟨h, rfl⟩

/-- The write of a target is well formed and is encoded as the access at the offset that names it. -/
theorem encode_writeOf {target : Target} (v : Word) (h : target.NamedBy n offset) :
    (writeOf offset v target).wellFormed n = true ∧ encode (writeOf offset v target) = .mmioWrite offset 4 v := by
  cases target with
  | isr | ifcr => cases h; exact ⟨rfl, rfl⟩
  | channel c r =>
    obtain ⟨hwf, rfl⟩ := h
    cases r <;> exact ⟨hwf, rfl⟩
  | inactive | unknown => exact ⟨h, rfl⟩

/-- An access that decodes has size 4. -/
theorem size_of_decode_mmioRead {size : Nat} {i : Instr} (h : decode n (.mmioRead offset size) = .ok i) : size = 4 := by
  rw [decode] at h
  split_ifs at h
  assumption

theorem size_of_decode_mmioWrite {size : Nat} {v : Word} {i : Instr}
    (h : decode n (.mmioWrite offset size v) = .ok i) : size = 4 := by
  rw [decode] at h
  split_ifs at h
  assumption

/-- Settles O57: an access is read off the target its offset names, every other operation off its constructor. -/
theorem encodeOfDecodeIsTheOperation : Obligations.EncodeOfDecodeIsTheOperation := by
  intro n o i h
  cases o with
  | mmioRead offset size =>
    obtain rfl := size_of_decode_mmioRead h
    cases h
    exact encode_readOf (namedBy_decodeOffset n offset)
  | mmioWrite offset size v =>
    obtain rfl := size_of_decode_mmioWrite h
    cases h
    exact encode_writeOf v (namedBy_decodeOffset n offset)
  | request | reset | construct | snapshot | restore => cases h; exact ⟨rfl, rfl⟩

/-! ### The offset decode by index and sub-offset -/

theorem decodeOffset_of_lt_eight (h : offset.toNat < 8) (h₀ : offset.toNat ≠ 0) (h₄ : offset.toNat ≠ 4) :
    decodeOffset n offset = .unknown := by
  rw [decodeOffset, if_neg h₀, if_neg h₄, if_pos h]

/-- A register's sub-offset in an active channel's block decodes to that register. -/
theorem decodeOffset_of_register {c k : Nat} {r : ChannelRegister} (hr : registerAt k = some r) (hc : c < n)
    (h : offset.toNat = 8 + 20 * c + k) : decodeOffset n offset = .channel c r := by
  rw [decodeOffset_of_split (lt_of_registerAt hr) h, if_neg (by omega), hr]

/-- Settles O15: past the global registers the index and the sub-offset determine the target. -/
theorem offsetDecodeFollowsRegisterMap : Obligations.OffsetDecodeFollowsRegisterMap := by
  intro n offset
  refine ⟨fun h => ?_, fun h => ?_, decodeOffset_of_lt_eight, fun c k hk h => ⟨fun hn => ?_, ?_, ?_, ?_, ?_, ?_⟩⟩
  · rw [decodeOffset, if_pos h]
  · rw [decodeOffset, if_neg (by omega), if_pos h]
  · rw [decodeOffset_of_split hk h, if_pos hn]
  · rintro hc rfl
    exact decodeOffset_of_register (r := .ccr) rfl hc h
  · rintro hc rfl
    exact decodeOffset_of_register (r := .cndtr) rfl hc h
  · rintro hc rfl
    exact decodeOffset_of_register (r := .cpar) rfl hc h
  · rintro hc rfl
    exact decodeOffset_of_register (r := .cmar) rfl hc h
  · intro hc hno
    rw [decodeOffset_of_split hk h, if_neg (by omega), registerAt_none hno]

/-- Settles O14: both unknown ranges decode to the unknown rows, which look at nothing. -/
theorem unknownOffsetsReadZeroAndIgnoreWrites : Obligations.UnknownOffsetsReadZeroAndIgnoreWrites := by
  intro s offset v h
  have hunknown : offsetIsUnknown s.channelCount offset = true := by
    simpa [offsetIsUnknown, and_assoc] using h
  have hd := decodeOffset_of_unknown hunknown
  exact ⟨by rw [decode_mmioRead, hd, readOf], by rw [decode_mmioWrite, hd, writeOf],
    Machine.exec_rdUnknown s offset, Machine.exec_wrUnknown s offset v⟩

/-- Settles O58: each written-out operation is evaluated. -/
theorem writtenOutOperationsDecode : Obligations.WrittenOutOperationsDecode :=
  ⟨rfl, rfl, rfl, rfl, rfl, rfl, rfl, rfl, rfl, rfl⟩

end Sys2Proof
end

section
/-!
PROOFS. The equations of a step (00_scope.md R14): idle, another agent's store, a rejected access, and an operation that
decodes; and plain memory through windows (20_memory.md section 2).
-/

namespace Sys2Proof.Machine

variable {s : State} {rest : List Event}

/-! ### What a step is, by the next event -/

theorem step_of_idle (hin : s.input = []) : step s = .next s := by
  simp [step, takeEvent, hin]

theorem step_of_targetStore {a : Word} {b : Byte} (hin : s.input = .targetStore a b :: rest) :
    step s = .next (targetStore { s with input := rest } a b) := by
  simp [step, takeEvent, hin]

theorem step_of_decode_error {o : Operation} {e : DecodeError} (hin : s.input = .operation o :: rest)
    (hd : decode s.channelCount o = .error e) : step s = .refused (refusalOf e) := by
  simp [step, takeEvent, hin, hd]

/-- An operation that decodes is run where the machine has a step on it, and refused elsewhere. -/
theorem step_of_decode_ok {o : Operation} {i : Instr} (hin : s.input = .operation o :: rest)
    (hd : decode s.channelCount o = .ok i) :
    step s = if admits s i then exec i { s with input := rest } else .refused .notConstructed := by
  simp only [step, takeEvent, hin, hd]
  rfl

/-- Settles O54: the one test before `exec` is whether the machine has a step on the operation. -/
theorem stepRunsTheDecodedOperation : Obligations.StepRunsTheDecodedOperation := by
  intro s o i rest hin hd
  rw [step_of_decode_ok hin hd]
  refine ⟨fun h => if_pos ?_, fun hs hi => if_neg ?_⟩
  · simpa [admits] using h
  · simp [admits, hs, hi]

/-- Settles O18: the size is tested by the decoder, before the offset is looked at. -/
theorem mmioOfAnotherSizeIsRefused : Obligations.MmioOfAnotherSizeIsRefused := fun _ _ _ _ _ hsize =>
  ⟨fun hin => step_of_decode_error (e := .mmioSize) hin (if_neg hsize),
   fun hin => step_of_decode_error (e := .mmioSize) hin (if_neg hsize)⟩

/-- Settles O55: the store is one write of memory. -/
theorem idleAndForeignStoresTouchNoBlockState : Obligations.IdleAndForeignStoresTouchNoBlockState := by
  intro s
  refine ⟨step_of_idle, fun a b rest hin hinv => ?_⟩
  obtain ⟨-, -, hmem⟩ := hinv
  exact ⟨_, step_of_targetStore hin, rfl, Memory.read_write_same _ _ hmem, fun k hk =>
    Memory.read_write_other _ hmem fun he => hk (BitVec.eq_of_toNat_eq he)⟩

/-! ### Words by their lanes -/

/-- A word is its four lanes. -/
theorem word_ext_of_lanes {v w : Word} (h : ∀ i < 4, laneOf v i = laneOf w i) : v = w := by
  refine BitVec.eq_of_getLsbD_eq fun j hj => ?_
  have hlane := congrArg (·.getLsbD (j % 8)) (h (j / 8) (by omega))
  simpa [laneOf, Nat.div_add_mod, Nat.mod_lt] using hlane

/-- A byte widened to a window and moved up by `k` bytes lies in lane `k` alone. -/
theorem laneOf_setWidth_shiftLeft (b : Byte) (k : Nat) {i : Nat} (hi : i < 4) :
    laneOf (b.setWidth 32 <<< (8 * k)) i = if i = k then b else 0 := by
  refine BitVec.eq_of_getLsbD_eq fun j hj => ?_
  have hbit : 8 * i + j < 32 := by omega
  simp only [laneOf, BitVec.getLsbD_extractLsb', BitVec.getLsbD_shiftLeft, BitVec.getLsbD_setWidth, hj, hbit,
    decide_true, Bool.true_and]
  rcases lt_trichotomy i k with hlt | rfl | hgt
  · simp [hlt.ne, show 8 * i + j < 8 * k by omega]
  · simp [show j < 32 by omega]
  · simp [hgt.ne', BitVec.getLsbD_of_ge b (8 * i + j - 8 * k) (by omega)]

/-- A byte widened to a window lies in its lowest lane. -/
theorem laneOf_setWidth (b : Byte) {i : Nat} (hi : i < 4) : laneOf (b.setWidth 32) i = if i = 0 then b else 0 := by
  simpa using laneOf_setWidth_shiftLeft b 0 hi

/-- Lane `i` of a window read and masked: the byte at its address where the element reaches, else 0. -/
theorem laneOf_memRead_and_dmask (m : Memory) (a : Word) (size : ElemSize) {i : Nat} (hi : i < 4) :
    laneOf (memRead m a &&& dmask size) i = if i < size.bytes then m.read (windowAddress a i).toNat else 0 := by
  rw [laneOf_and, laneOf_dmask size hi, laneOf_memRead m a hi]
  split
  · exact BitVec.and_allOnes
  · exact BitVec.and_zero

/-- Settles O48: the lanes an element does not reach are masked away. -/
theorem narrowElementIsTheLowLanes : Obligations.NarrowElementIsTheLowLanes := by
  intro m a
  refine ⟨word_ext_of_lanes fun i hi => ?_, word_ext_of_lanes fun i hi => ?_, BitVec.and_allOnes⟩
  · rw [laneOf_memRead_and_dmask m a .byte hi, laneOf_setWidth _ hi]
    interval_cases i <;> simp [ElemSize.bytes, windowAddress]
  · rw [laneOf_memRead_and_dmask m a .halfword hi, laneOf_or, laneOf_setWidth _ hi, laneOf_setWidth_shiftLeft _ 1 hi]
    interval_cases i <;> simp [ElemSize.bytes, windowAddress]

/-- A window written to plain memory is read back. -/
theorem memRead_memWrite_same {m : Memory} (a v : Word) (h : Memory.wf m = true) :
    memRead (memWrite [] m a v) a = v :=
  word_ext_of_lanes fun i hi => by rw [laneOf_memRead _ a hi, read_memWrite_lane h hi rfl]

/-- Settles O47: the lanes of the value lie at the window's addresses, and a word is its lanes. -/
theorem windowIsStoredLittleEndian : Obligations.WindowIsStoredLittleEndian := by
  intro m a v h
  have hlane (i : Nat) (hi : i < 4) := read_memWrite_lane (rs := []) (a := a) (v := v) h hi rfl
  refine ⟨memRead_memWrite_same a v h, ?_, hlane 1 (by decide), hlane 2 (by decide), hlane 3 (by decide), ?_⟩
  · have h₀ := hlane 0 (by decide)
    rwa [windowAddress_zero] at h₀
  · intro k h₀ h₁ h₂ h₃
    refine read_memWrite_outside h fun i hi he => ?_
    have hk : k = windowAddress a i := BitVec.eq_of_toNat_eq he
    interval_cases i
    · exact h₀ (hk.trans (windowAddress_zero a))
    · exact h₁ hk
    · exact h₂ hk
    · exact h₃ hk

end Sys2Proof.Machine
end

section
/-!
PROOFS. Runs of operations: what every operation of a run keeps, the run keeps. From it the round trip of a register
(40_register_file.md section 5), and beside it the repeated write (20_memory.md section 1).
-/

namespace Sys2Proof.Machine

variable {s t u : State} {c : Nat} {i : Instr} {is : List Instr}

/-! ### Runs of operations -/

/-- A run that completes is its first operation and the run of the rest. -/
theorem runAll_cons_next (h : runAll (i :: is) s = .next u) : ∃ t, exec i s = .next t ∧ runAll is t = .next u := by
  rw [runAll] at h
  split at h
  · exact ⟨_, ‹_›, h⟩
  all_goals cases h

theorem runAll_cons_of_next (h : exec i s = .next t) : runAll (i :: is) s = runAll is t := by
  rw [runAll, h]

/-- What each operation of a run keeps, the run keeps. -/
theorem runAll_keeps {P : State → Prop} (hstep : ∀ i ∈ is, ∀ s t, P s → exec i s = .next t → P t) (hs : P s)
    (h : runAll is s = .next u) : P u := by
  induction is generalizing s with
  | nil => cases h; exact hs
  | cons i is ih =>
    obtain ⟨t, hi, hrest⟩ := runAll_cons_next h
    exact ih (fun j hj => hstep j (List.mem_cons_of_mem i hj)) (hstep i List.mem_cons_self s t hs hi) hrest

/-! ### What a run leaves of the binding -/

/-- The two states have the same binding: the block exists in both or in neither, with the same channel_count,
accessor and number of slots. -/
structure State.SameBinding (s t : State) : Prop where
  constructed : t.constructed = s.constructed
  channelCount : t.channelCount = s.channelCount
  accessor : t.accessor = s.accessor
  length : t.ch.length = s.ch.length

theorem State.SameBinding.refl (s : State) : s.SameBinding s := ⟨rfl, rfl, rfl, rfl⟩

/-- No operation but a construction changes the binding. -/
theorem State.SameBinding.of_exec (hi : isConstruction i = false) (hs : s.SameBinding t) (h : exec i t = .next u) :
    s.SameBinding u := by
  obtain ⟨hconstructed, hcount, haccessor⟩ := exec_binding hi h
  exact ⟨hconstructed.trans hs.constructed, hcount.trans hs.channelCount, haccessor.trans hs.accessor,
    (exec_length h).trans hs.length⟩

/-- A run that completes keeps the binding of a block that exists, whatever its operations are, and that of any state
when none of them is a construction. -/
theorem State.SameBinding.of_runAll (hi : s.constructed = true ∨ ∀ i ∈ is, isConstruction i = false)
    (h : runAll is s = .next u) : s.SameBinding u := by
  refine runAll_keeps (fun i hmem t t' ht hexec => ht.of_exec ?_ hexec) (.refl s) h
  rcases hi with hs | hnone
  · exact isConstruction_of_exec_next (ht.constructed.trans hs) hexec
  · exact hnone i hmem

/-! ### Fields that no operation of a run may write -/

theorem BlockField.same_trans {f : BlockField} (h₁ : f.same s t) (h₂ : f.same t u) : f.same s u := by
  cases f <;> exact Eq.trans h₂ h₁

/-- A run none of whose operations may write the field keeps it. -/
theorem BlockField.same_of_runAll {f : BlockField} (hm : ∀ i ∈ is, ∀ w, mayWrite i w f = false)
    (h : runAll is s = .next u) : f.same s u :=
  runAll_keeps (P := f.same s)
    (fun i hi t t' ht hexec =>
      BlockField.same_trans ht (fieldsAreWrittenOnlyByTheirWriters i t t' f hexec (hm i hi t)))
    (f.same_refl s) h

/-- The field of the block that holds register `r` of channel `c`. -/
def BlockField.ofRegister (r : ChannelRegister) (c : Nat) : BlockField :=
  match r with
  | .ccr => .ccr c
  | .cndtr => .cndtr c
  | .cpar => .cpar c
  | .cmar => .cmar c

theorem BlockField.same_ofRegister {r : ChannelRegister} :
    (BlockField.ofRegister r c).same s t ↔ t.ch[c]?.map r.valueIn = s.ch[c]?.map r.valueIn := by
  cases r <;> exact Iff.rfl

/-- A construction may write every register of a channel. -/
theorem isConstruction_of_mayWrite_ofRegister {r : ChannelRegister}
    (h : mayWrite i s (BlockField.ofRegister r c) = false) : isConstruction i = false := by
  cases i with
  | cfg n accessor => cases r <;> simp [BlockField.ofRegister, mayWrite, writesEverything] at h
  | _ => rfl

/-- A channel register written reads as the value written after any run that may not write it. -/
theorem exec_readInstr_of_runAll {r : ChannelRegister} {v : Word} (hinv : s.Inv) (hc : c < s.channelCount)
    (hrun : runAll is t = .next u) (hw : exec (r.writeInstr c v) s = .next t)
    (hm : ∀ i ∈ is, ∀ w, mayWrite i w (BlockField.ofRegister r c) = false) :
    exec (r.readInstr c) u = .next (answer u (.word v)) := by
  obtain ⟨x, hx⟩ := slot_of_active hinv hc
  have hbinding : t.SameBinding u :=
    .of_runAll (.inr fun i hi => isConstruction_of_mayWrite_ofRegister (hm i hi t)) hrun
  have hsame := BlockField.same_ofRegister.1 (BlockField.same_of_runAll hm hrun)
  have ht := (exec_writeInstr_active r v hc hx).symm.trans hw
  cases ht
  have hslot : u.ch[c]?.map r.valueIn = some v := by
    rw [hsame, answer_ch, getElem?_setChannel_self hx, Option.map_some, ChannelRegister.valueIn_storeIn]
  obtain ⟨y, hy, rfl⟩ := Option.map_eq_some_iff.1 hslot
  exact exec_readInstr_active r (hbinding.channelCount ▸ hc) hy

/-- RD IFCR shows whatever `ifcr` is known to be. -/
theorem exec_rdIfcr_of_eq {v : Word} (h : t.ifcr = v) : exec .rdIfcr t = .next (answer t (.word v)) := by
  rw [exec_rdIfcr, h]

/-- Settles O20: the table of writers is a frame for runs too, so the register still holds the value written. -/
theorem roundTripSurvivesOtherOperations : Obligations.RoundTripSurvivesOtherOperations := by
  intro s t u c v between hinv hc hrun
  refine ⟨fun hw hm => ?_, fun hw hm => ?_, exec_readInstr_of_runAll (r := .ccr) hinv hc hrun,
    exec_readInstr_of_runAll (r := .cndtr) hinv hc hrun, exec_readInstr_of_runAll (r := .cpar) hinv hc hrun,
    exec_readInstr_of_runAll (r := .cmar) hinv hc hrun⟩
  · have hisr : u.isr = t.isr := BlockField.same_of_runAll hm hrun
    cases hw
    exact exec_rdIsr_of_eq hisr
  · have hifcr : u.ifcr = t.ifcr := BlockField.same_of_runAll hm hrun
    cases hw
    exact exec_rdIfcr_of_eq hifcr

/-! ### The same write twice -/

@[simp] theorem ChannelRegister.storeIn_storeIn (r : ChannelRegister) (v : Word) (x : Channel) :
    r.storeIn v (r.storeIn v x) = r.storeIn v x := by cases r <;> rfl

theorem writeChannel_of_lt {update : Channel → Channel} (hc : c < s.channelCount) :
    writeChannel s c update = .next (answer (setChannel s c (update (channelAt s c))) .none) := by
  rw [writeChannel, if_pos hc, done]

theorem writeChannel_of_le {update : Channel → Channel} (hc : s.channelCount ≤ c) :
    writeChannel s c update = .next (answer s .none) := by
  rw [writeChannel, if_neg (not_lt.2 hc), done]

/-- Updating a slot twice by an update that does no more the second time is updating it once. -/
theorem setChannel_update_update {update : Channel → Channel} (hu : ∀ x, update (update x) = update x) :
    setChannel (setChannel s c (update (channelAt s c))) c
        (update (channelAt (setChannel s c (update (channelAt s c))) c))
      = setChannel s c (update (channelAt s c)) := by
  by_cases hl : c < s.ch.length
  · simp [setChannel, channelAt, hl, hu]
  · simp [setChannel, List.set_eq_of_length_le (not_lt.1 hl)]

/-- A channel-register write whose update does no more the second time does no more the second time. -/
theorem writeChannel_of_writeChannel {update : Channel → Channel} (hu : ∀ x, update (update x) = update x)
    (h : writeChannel s c update = .next t) : writeChannel t c update = .next t := by
  rcases writeChannel_next h with ⟨hc, rfl⟩ | ⟨hc, rfl⟩
  · have hagain := congrArg (answer · .none) (setChannel_update_update (s := s) (c := c) hu)
    refine (writeChannel_of_lt ?_).trans (congrArg _ hagain)
    exact hc
  · exact writeChannel_of_le hc

/-- Settles O19: each target either stores the value, once for all, or stores nothing. -/
theorem repeatedWriteIsIdempotent : Obligations.RepeatedWriteIsIdempotent := by
  intro s t offset v i hd h
  rw [decode_mmioWrite] at hd
  cases hd
  cases hd : decodeOffset s.channelCount offset with
  | channel c r =>
    rw [hd, writeOf_channel, exec_writeInstr] at h
    rw [writeOf_channel, exec_writeInstr]
    exact writeChannel_of_writeChannel (ChannelRegister.storeIn_storeIn r v) h
  | isr | ifcr | inactive | unknown =>
    rw [hd] at h
    cases h
    rfl

end Sys2Proof.Machine
end

section
/-!
PROOFS. Construction, snapshot and restore (43_lifecycle.md), the requests after a reset (70_reset_and_hazards.md
section 1), and the invariants of 10_state.md section 5.
-/

namespace Sys2Proof.Machine

variable {s t u : State} {n c : Nat} {a : Accessor} {x : Channel} {i : Instr}

/-! ### Construction -/

theorem exec_cfg_of_none (hs : s.constructed = false) : exec (.cfg n none) s = .fault .noAccessor := by
  simp [exec, execCfg, hs]

theorem exec_cfg_of_bad_count (hs : s.constructed = false) (hn : n < 1 ∨ s.ch.length < n) :
    exec (.cfg n (some a)) s = .fault .badChannelCount := by
  simp only [exec, execCfg, hs, Bool.false_eq_true, if_false, if_pos hn]

/-- On a machine without a block a fitting construction binds its operands and resets. -/
theorem exec_cfg_of_fitting (hs : s.constructed = false) (h₁ : 1 ≤ n) (hn : n ≤ s.ch.length) :
    exec (.cfg n (some a)) s =
      .next (answer (clearRegisters { s with constructed := true, channelCount := n, accessor := a }) .none) := by
  have hfit : ¬(n < 1 ∨ s.ch.length < n) := by omega
  simp only [exec, execCfg, hs, Bool.false_eq_true, if_false, if_neg hfit, done]

/-- Settles O43: the tests of a construction in their order, then the block it makes. -/
theorem constructionBindsAndResets : Obligations.ConstructionBindsAndResets := by
  intro s n a
  refine ⟨fun hs => ⟨exec_cfg_of_none hs, exec_cfg_of_bad_count hs, fun h₁ hn => ?_⟩,
    fun hs accessor => exec_cfg_of_constructed hs⟩
  rw [exec_cfg_of_fitting hs h₁ hn, clearRegisters_eq]
  rfl

/-! ### Requests to slots that are zero -/

theorem channelAt_of_all_zero (hz : ∀ y ∈ s.ch, y = Channel.zero) (c : Nat) : channelAt s c = Channel.zero := by
  by_cases hl : c < s.ch.length
  · rw [channelAt_of_getElem? (List.getElem?_eq_getElem hl)]
    exact hz _ (List.getElem_mem hl)
  · exact channelAt_eq_zero (not_lt.1 hl)

/-- While every slot is zero, every request on every input is a no-op. -/
theorem exec_req_of_all_zero (hz : ∀ y ∈ s.ch, y = Channel.zero) (channel level : Int) :
    exec (.req channel level) s = .next (answer s .none) := by
  by_cases hv : channel < 0 ∨ (s.channelCount : Int) ≤ channel
  · exact execReq_invalid (level := level) hv
  · rw [exec, execReq, if_neg hv]
    exact transfer_of_rejects (by rw [channelAt_of_all_zero hz, rejects_zero])

theorem clearRegisters_all_zero (s : State) : ∀ y ∈ (clearRegisters s).ch, y = Channel.zero := by
  intro y hy
  rw [clearRegisters_slots] at hy
  exact List.eq_of_mem_replicate hy

/-- Settles O42: a reset leaves every slot zero. -/
theorem afterResetEveryRequestIsANoOp : Obligations.AfterResetEveryRequestIsANoOp := by
  intro s t channel level h
  cases h
  exact exec_req_of_all_zero (s := answer (clearRegisters s) .none) (clearRegisters_all_zero s) channel level

/-! ### Snapshot and restore -/

/-- Settles O44: the record's head by definition, its slots by `snapshotRecord_slot`. -/
theorem snapshotHasTheFixedFieldOrder : Obligations.SnapshotHasTheFixedFieldOrder := fun s =>
  ⟨snapshotRecord s, rfl, snapshotRecord_length s, rfl, rfl, rfl, fun _ _ hx =>
    ⟨snapshotRecord_slot hx (k := 0) (by decide), snapshotRecord_slot hx (k := 1) (by decide),
     snapshotRecord_slot hx (k := 2) (by decide), snapshotRecord_slot hx (k := 3) (by decide),
     snapshotRecord_slot hx (k := 4) (by decide)⟩⟩

theorem getElem?_recordField {r : List Word} {j : Nat} (h : j < r.length) : r[j]? = some (recordField r j) := by
  simp [recordField, List.getD, h]

theorem recordField_of_getElem? {r : List Word} {j : Nat} {v : Word} (h : r[j]? = some v) : recordField r j = v := by
  simp [recordField, List.getD, h]

theorem exec_load_of_bad_shape {r : List Word} (h : r.length ≠ 3 + 5 * s.ch.length) :
    exec (.load r) s = .refused .restoreShape := by
  rw [exec, execLoad, if_pos h]

theorem exec_load_of_bad_count {r : List Word} (h : r.length = 3 + 5 * s.ch.length)
    (hcount : recordField r 2 ≠ countWord s) : exec (.load r) s = .refused .restoreMismatch := by
  rw [exec, execLoad, if_neg (not_not.2 h), if_pos hcount]

/-- A record of the right shape with the block's channel_count is loaded. -/
theorem exec_load_of_fitting {r : List Word} (h : r.length = 3 + 5 * s.ch.length)
    (hcount : recordField r 2 = countWord s) : exec (.load r) s = .next (answer (loadRecord s r) .none) := by
  rw [exec, execLoad, if_neg (not_not.2 h), if_neg (not_not.2 hcount), done]

/-- The channel_count test of a restore, in the words of the list. -/
theorem recordField_two_eq_countWord {r : List Word} (h : r.length = 3 + 5 * s.ch.length) :
    recordField r 2 = countWord s ↔ r[2]? = some (BitVec.ofNat 32 s.channelCount) := by
  rw [getElem?_recordField (by omega), Option.some_inj, countWord]

/-- Slot `c` after a restore is the record's. -/
theorem eq_channelOfRecord_of_loadRecord {r : List Word} (hx : (loadRecord s r).ch[c]? = some x) :
    c < s.ch.length ∧ x = channelOfRecord r c := by
  rw [loadRecord_ch, List.getElem?_map, Option.map_eq_some_iff] at hx
  obtain ⟨d, hd, rfl⟩ := hx
  obtain ⟨hlt, rfl⟩ := List.getElem?_eq_some_iff.1 hd
  rw [List.length_range] at hlt
  exact ⟨hlt, by rw [List.getElem_range]⟩

/-- Settles O45: the two tests in their order, then every field from its place in the record. -/
theorem restoreLoadsTheRecordVerbatim : Obligations.RestoreLoadsTheRecordVerbatim := by
  intro s r
  refine ⟨exec_load_of_bad_shape, fun h => ⟨fun hcount => ?_, fun hcount => ?_⟩⟩
  · exact exec_load_of_bad_count h fun he => hcount ((recordField_two_eq_countWord h).1 he)
  · refine ⟨_, exec_load_of_fitting h ((recordField_two_eq_countWord h).2 hcount), rfl,
      getElem?_recordField (by omega), getElem?_recordField (by omega), by simp, fun c x hx => ?_⟩
    obtain ⟨hc, rfl⟩ := eq_channelOfRecord_of_loadRecord hx
    exact ⟨getElem?_recordField (by omega), getElem?_recordField (by omega), getElem?_recordField (by omega),
      getElem?_recordField (by omega), getElem?_recordField (by omega)⟩

/-- The slot that a snapshot holds for a channel is the channel's. -/
theorem channelOfRecord_snapshotRecord (hx : s.ch[c]? = some x) : channelOfRecord (snapshotRecord s) c = x := by
  have hfield (k : Nat) (hk : k < 5) := snapshotRecord_slot hx hk
  rw [channelOfRecord, recordField_of_getElem? (hfield 0 (by decide)), recordField_of_getElem? (hfield 1 (by decide)),
    recordField_of_getElem? (hfield 2 (by decide)), recordField_of_getElem? (hfield 3 (by decide)),
    recordField_of_getElem? (hfield 4 (by decide))]

/-- A snapshot loaded into a block with as many slots brings back the registers it was taken of. -/
theorem loadRecord_snapshotRecord (hlength : u.ch.length = s.ch.length) :
    loadRecord u (snapshotRecord s) = { u with isr := s.isr, ifcr := s.ifcr, ch := s.ch } := by
  have hch : (List.range u.ch.length).map (channelOfRecord (snapshotRecord s)) = s.ch := by
    refine List.ext_getElem (by simp [hlength]) fun c _ hc => ?_
    rw [List.getElem_map, List.getElem_range]
    exact channelOfRecord_snapshotRecord (List.getElem?_eq_getElem hc)
  rw [loadRecord, hch]
  rfl

/-- Settles O46: the run keeps the binding, so the record still fits, and loading it undoes the rest. -/
theorem restoreOfASnapshotUndoesAllButMemory : Obligations.RestoreOfASnapshotUndoesAllButMemory := by
  intro s t u r between hsnap hr hbetween hrun
  cases hsnap
  cases hr
  obtain ⟨-, hcount, haccessor, hlength⟩ :=
    State.SameBinding.of_runAll (s := answer s (.record (snapshotRecord s))) hbetween hrun
  rw [answer_channelCount] at hcount
  rw [answer_accessor] at haccessor
  rw [answer_ch] at hlength
  have hfit : (snapshotRecord s).length = 3 + 5 * u.ch.length := by rw [snapshotRecord_length, hlength]
  have hword : recordField (snapshotRecord s) 2 = countWord u := by rw [countWord, hcount]; rfl
  rw [exec_load_of_fitting hfit hword, loadRecord_snapshotRecord hlength]
  rw [← hcount, ← haccessor]
  rfl

/-! ### The invariant -/

/-- Every operation keeps the range of channel_count. -/
theorem exec_channelCount_range (hs : 1 ≤ s.channelCount ∧ s.channelCount ≤ s.ch.length)
    (h : exec i s = .next t) : 1 ≤ t.channelCount ∧ t.channelCount ≤ t.ch.length := by
  rw [exec_length h]
  cases hi : isConstruction i with
  | false => rwa [(exec_binding hi h).2.1]
  | true =>
    cases i <;> cases hi
    obtain ⟨-, _, -, h₁, hn, rfl⟩ := exec_cfg_next h
    exact ⟨h₁, hn⟩

theorem exec_keeps_inv (hs : s.Inv) (h : exec i s = .next t) : t.Inv := by
  obtain ⟨h₁, hn, hmem⟩ := hs
  obtain ⟨h₁', hn'⟩ := exec_channelCount_range ⟨h₁, hn⟩ h
  exact ⟨h₁', hn', exec_mem_wf h hmem⟩

theorem exec_keeps_constructed (hs : s.constructed = true) (h : exec i s = .next t) : t.constructed = true :=
  (exec_binding (isConstruction_of_exec_next hs h) h).1.trans hs

/-- Settles O49: an idle step changes nothing, a store only memory, and every operation keeps each part. -/
theorem everyStepKeepsTheInvariant : Obligations.EveryStepKeepsTheInvariant := by
  intro s t hs h
  obtain ⟨h₁, hn, hmem⟩ := id hs
  rcases step_next h with ⟨-, rfl⟩ | ⟨a, b, rest, -, rfl⟩ | ⟨o, rest, i, -, -, -, hexec⟩
  · exact ⟨hs, rfl, id⟩
  · exact ⟨⟨h₁, hn, Memory.write_wf a.isLt hmem⟩, rfl, id⟩
  · exact ⟨exec_keeps_inv (s := { s with input := rest }) hs hexec,
      exec_length (s := { s with input := rest }) hexec,
      fun hc => exec_keeps_constructed (s := { s with input := rest }) hc hexec⟩

/-- Settles O50: the reset state is a literal. -/
theorem resetStateMeetsTheInvariant : Obligations.ResetStateMeetsTheInvariant := by
  refine ⟨?_, ?_, rfl⟩ <;> decide

/-! ### Inactive slots -/

/-- The slots of `t` are those of `s`, one active slot of them at most replaced. -/
def State.ActiveSlotReplaced (s t : State) : Prop :=
  t.channelCount = s.channelCount ∧ (t.ch = s.ch ∨ ∃ c y, c < s.channelCount ∧ t.ch = s.ch.set c y)

theorem State.ActiveSlotReplaced.of_writeChannel {update : Channel → Channel}
    (h : writeChannel s c update = .next t) : s.ActiveSlotReplaced t := by
  rcases writeChannel_next h with ⟨hc, rfl⟩ | ⟨-, rfl⟩
  · exact ⟨rfl, .inr ⟨c, _, hc, rfl⟩⟩
  · exact ⟨rfl, .inl rfl⟩

theorem State.ActiveSlotReplaced.of_exec_req {channel level : Int} (h : exec (.req channel level) s = .next t) :
    s.ActiveSlotReplaced t := by
  rcases execReq_next (level := level) h with rfl | ⟨c, _, _, -, hc, -, -, -, -, -, rfl⟩
  · exact ⟨rfl, .inl rfl⟩
  · exact ⟨by simp [transferred], .inr ⟨c, afterElement (channelAt s c), hc, by simp [transferred]⟩⟩

/-- What an operation that is no restore does to the slots: at most one active slot is replaced, or all are cleared. -/
theorem exec_slots (hi : isRestore i = false) (h : exec i s = .next t) :
    s.ActiveSlotReplaced t ∨ ∀ y ∈ t.ch, y = Channel.zero := by
  cases i with
  | rdIsr | wrIsr | rdIfcr | wrIfcr | rdCcr | rdCndtr | rdCpar | rdCmar | rdInactive | wrInactive | rdUnknown
  | wrUnknown | snap => cases h; exact .inl ⟨rfl, .inl rfl⟩
  | wrCcr c v => rw [exec_wrCcr] at h; exact .inl (.of_writeChannel h)
  | wrCndtr c v => rw [exec_wrCndtr] at h; exact .inl (.of_writeChannel h)
  | wrCpar c v => rw [exec_wrCpar] at h; exact .inl (.of_writeChannel h)
  | wrCmar c v => rw [exec_wrCmar] at h; exact .inl (.of_writeChannel h)
  | req channel level => exact .inl (.of_exec_req h)
  | rst => cases h; exact .inr (clearRegisters_all_zero s)
  | cfg m accessor =>
    obtain ⟨-, _, -, -, -, rfl⟩ := exec_cfg_next h
    exact .inr (clearRegisters_all_zero _)
  | load r => cases hi

theorem exec_keeps_inactiveZero (hi : isRestore i = false) (hs : s.InactiveZero) (h : exec i s = .next t) :
    t.InactiveZero := by
  intro y hy
  rcases exec_slots hi h with ⟨hcount, hch | ⟨c, z, hc, hch⟩⟩ | hzero
  · rw [hcount, hch] at hy
    exact hs y hy
  · rw [hcount, hch, List.drop_set_of_lt hc] at hy
    exact hs y hy
  · exact hzero y (List.mem_of_mem_drop hy)

/-- A restore is decoded from a restore event alone. -/
theorem isRestore_of_decode {o : Operation} (hd : decode n o = .ok i) (ho : ∀ r, o ≠ .restore r) :
    isRestore i = false := by
  obtain ⟨-, -, hload⟩ := decode_lifecycle hd
  cases i with
  | load r => exact absurd (hload r rfl) (ho r)
  | _ => rfl

/-- Settles O51: a step that is no restore writes active slots only, or clears them all. -/
theorem inactiveSlotsStayZeroUntilRestore : Obligations.InactiveSlotsStayZeroUntilRestore := by
  intro s t _ hs hin h
  rcases step_next h with ⟨-, rfl⟩ | ⟨a, b, rest, -, rfl⟩ | ⟨o, rest, i, hop, hd, -, hexec⟩
  · exact hs
  · exact hs
  · refine exec_keeps_inactiveZero (s := { s with input := rest }) (isRestore_of_decode hd ?_) hs hexec
    rintro r rfl
    exact hin r rest hop

/-! ### The start of a run -/

/-- Settles O60: the step is the construction, which resets the block it makes. -/
theorem aRunStartsWithAConstruction : Obligations.ARunStartsWithAConstruction := by
  intro s n a rest hs hmem h₁ hn hin
  have hstep : step s = exec (.cfg n (some a)) { s with input := rest } :=
    (step_of_decode_ok hin rfl).trans (if_pos (by simp [admits, isConstruction]))
  have hzero := clearRegisters_all_zero { s with input := rest, constructed := true, channelCount := n, accessor := a }
  refine ⟨_, hstep.trans (exec_cfg_of_fitting hs h₁ hn), rfl, rfl, rfl, ⟨h₁, ?_, hmem⟩, ?_, rfl, rfl, ?_⟩
  · simpa using hn
  · exact fun y hy => hzero y (List.mem_of_mem_drop hy)
  · exact exec_req_of_all_zero hzero

end Sys2Proof.Machine
end

section
/-!
PROOFS. A request in two parts: the verdict, which looks at its channel's slot and the accessor alone, and the effect of
the verdict. What a request sees and changes follows (42_transfer_engine.md section 3, 60_exceptions.md section 6).
-/

namespace Sys2Proof.Machine

variable {s s' t : State} {c d : Nat} {level : Int} {x : Channel} {a : Accessor}

/-! ### The verdict on a request -/

/-- What the tests of 60_exceptions.md R205 say of a slot: a refusal, a no-op, or the element to move. -/
def slotVerdict (a : Accessor) (x : Channel) : Except Refusal (Option Move) :=
  if rejects x then .ok none
  else match sizeOfCode (ccrPsize x.ccr), sizeOfCode (ccrMsize x.ccr) with
    | some psize, some msize =>
      if windowTouches a.selfWindow (moveOf x psize msize).se || windowTouches a.selfWindow (moveOf x psize msize).de
      then .error .selfAccess
      else .ok (some (moveOf x psize msize))
    | _, _ => .error .reservedSize

/-- The verdict on a request on channel `c`: one on an inactive channel is a no-op (41_request_router.md R132). -/
def verdict (c : Nat) (s : State) : Except Refusal (Option Move) :=
  if c < s.channelCount then slotVerdict s.accessor (channelAt s c) else .ok none

/-- The state after a request that is not refused. -/
def afterVerdict (c : Nat) (s : State) : Option Move → State
  | none => answer s .none
  | some mv => transferred c (channelAt s c) mv s

@[simp] theorem transferred_mem (c : Nat) (x : Channel) (mv : Move) (s : State) :
    (transferred c x mv s).mem = (moveElement mv s).mem := by
  simp only [transferred, setChannel_mem]

@[simp] theorem transferred_draws (c : Nat) (x : Channel) (mv : Move) (s : State) :
    (transferred c x mv s).draws = (moveElement mv s).draws := by
  simp only [transferred, setChannel_draws]

/-- The outcome of a verdict: a refusal has no next state. -/
def outcomeOf (c : Nat) (s : State) : Except Refusal (Option Move) → Host.Outcome State Fault Refusal
  | .error r => .refused r
  | .ok o => .next (afterVerdict c s o)

theorem transfer_eq_outcomeOf (c : Nat) (s : State) :
    transfer c s = outcomeOf c s (slotVerdict s.accessor (channelAt s c)) := by
  simp only [transfer, slotVerdict]
  split_ifs with hr
  · rfl
  · cases sizeOfCode (ccrPsize (channelAt s c).ccr) with
    | none => rfl
    | some psize =>
      cases sizeOfCode (ccrMsize (channelAt s c).ccr) with
      | none => rfl
      | some msize => dsimp only; split <;> rfl

theorem exec_req_of_verdict_ok {o : Option Move} (level : Int) (h : verdict c s = .ok o) :
    exec (.req (c : Int) level) s = .next (afterVerdict c s o) := by
  unfold verdict at h
  split_ifs at h with hc
  · rw [exec, execReq_valid hc, transfer_eq_outcomeOf, h, outcomeOf]
  · cases h
    exact execReq_invalid (level := level) (.inr (by omega))

theorem exec_req_of_verdict_error {r : Refusal} (level : Int) (h : verdict c s = .error r) :
    exec (.req (c : Int) level) s = .refused r := by
  unfold verdict at h
  split_ifs at h with hc
  rw [exec, execReq_valid hc, transfer_eq_outcomeOf, h, outcomeOf]

/-- A request that gives a next state had a verdict, and this state is its effect. -/
theorem verdict_of_exec_req_next (h : exec (.req (c : Int) level) s = .next t) :
    ∃ o, verdict c s = .ok o ∧ t = afterVerdict c s o := by
  cases hv : verdict c s with
  | error r => rw [exec_req_of_verdict_error level hv] at h; cases h
  | ok o => rw [exec_req_of_verdict_ok level hv] at h; cases h; exact ⟨o, rfl, rfl⟩

theorem verdict_of_exec_req_refused {r : Refusal} (h : exec (.req (c : Int) level) s = .refused r) :
    verdict c s = .error r := by
  cases hv : verdict c s with
  | error r' => rw [exec_req_of_verdict_error level hv] at h; cases h; rfl
  | ok o => rw [exec_req_of_verdict_ok level hv] at h; cases h

/-- The verdict depends on the slot, channel_count and the accessor alone. -/
theorem verdict_congr (hcount : s'.channelCount = s.channelCount) (ha : s'.accessor = s.accessor)
    (hslot : channelAt s' c = channelAt s c) : verdict c s' = verdict c s := by
  rw [verdict, verdict, hcount, ha, hslot]

/-! ### The effect of a verdict, field by field -/

@[simp] theorem afterVerdict_isr (c : Nat) (s : State) (o : Option Move) : (afterVerdict c s o).isr = s.isr := by
  cases o <;> simp [afterVerdict, transferred]

@[simp] theorem afterVerdict_ifcr (c : Nat) (s : State) (o : Option Move) : (afterVerdict c s o).ifcr = s.ifcr := by
  cases o <;> simp [afterVerdict, transferred]

@[simp] theorem afterVerdict_channelCount (c : Nat) (s : State) (o : Option Move) :
    (afterVerdict c s o).channelCount = s.channelCount := by
  cases o <;> simp [afterVerdict, transferred]

@[simp] theorem afterVerdict_accessor (c : Nat) (s : State) (o : Option Move) :
    (afterVerdict c s o).accessor = s.accessor := by
  cases o <;> simp [afterVerdict, transferred]

theorem afterVerdict_ch (c : Nat) (s : State) (o : Option Move) :
    (afterVerdict c s o).ch = if o.isSome then s.ch.set c (afterElement (channelAt s c)) else s.ch := by
  cases o <;> simp [afterVerdict, transferred]

theorem getElem?_afterVerdict_ne {o : Option Move} (hd : d ≠ c) : (afterVerdict c s o).ch[d]? = s.ch[d]? := by
  rw [afterVerdict_ch]
  split
  · rw [List.getElem?_set_ne hd.symm]
  · rfl

theorem channelAt_congr (h : s'.ch[c]? = s.ch[c]?) : channelAt s' c = channelAt s c := by
  rw [channelAt, channelAt, List.getD_eq_getElem?_getD, List.getD_eq_getElem?_getD, h]

/-- A request on one channel leaves the verdict on every other as it was. -/
theorem verdict_afterVerdict_ne {o : Option Move} (hd : d ≠ c) : verdict d (afterVerdict c s o) = verdict d s :=
  verdict_congr (afterVerdict_channelCount ..) (afterVerdict_accessor ..)
    (channelAt_congr (getElem?_afterVerdict_ne hd))

/-! ### A request sees its own slot only -/

/-- The effect of one verdict on two states that agree on the slot and the target space: they still do. -/
theorem afterVerdict_congr {o : Option Move} (ha : s'.accessor = s.accessor) (hm : s'.mem = s.mem)
    (hd : s'.draws = s.draws) (hslot : s'.ch[c]? = s.ch[c]?) :
    (afterVerdict c s' o).ch[c]? = (afterVerdict c s o).ch[c]?
    ∧ (afterVerdict c s' o).mem = (afterVerdict c s o).mem
    ∧ (afterVerdict c s' o).draws = (afterVerdict c s o).draws
    ∧ (afterVerdict c s' o).accesses = (afterVerdict c s o).accesses := by
  cases o with
  | none => exact ⟨hslot, hm, hd, rfl⟩
  | some mv =>
    obtain ⟨hmem, hdraws, haccesses⟩ := moveElement_congr ha hm hd mv
    refine ⟨?_, ?_⟩
    · simp only [afterVerdict_ch, Option.isSome_some, if_true, List.getElem?_set_self', channelAt_congr hslot, hslot]
    · simp only [afterVerdict, transferred_mem, transferred_draws, transferred_accesses, hmem, hdraws, haccesses,
        and_self]

/-- Settles O39: the verdict is the same in both states, and so is its effect on what they agree on. -/
theorem requestSeesAndChangesOnlyItsOwnSlot : Obligations.RequestSeesAndChangesOnlyItsOwnSlot := by
  intro s s' t c level hcount ha hm hd hslot h
  obtain ⟨o, hv, rfl⟩ := verdict_of_exec_req_next h
  have hv' : verdict c s' = .ok o := (verdict_congr hcount ha (channelAt_congr hslot)).trans hv
  obtain ⟨hch, hmem, hdraws, haccesses⟩ := afterVerdict_congr (o := o) ha hm hd hslot
  exact ⟨_, exec_req_of_verdict_ok level hv', hch, hmem, hdraws, haccesses, fun d hd =>
    ⟨getElem?_afterVerdict_ne hd, getElem?_afterVerdict_ne hd⟩⟩

/-! ### The bits of CCR that no rule reads -/

/-- The two control words agree on every field that the engine reads (42_transfer_engine.md section 3). -/
structure SameControl (v w : Word) : Prop where
  en : ccrEn v = ccrEn w
  dir : ccrDir v = ccrDir w
  circ : ccrCirc v = ccrCirc w
  pinc : ccrPinc v = ccrPinc w
  minc : ccrMinc v = ccrMinc w
  psize : ccrPsize v = ccrPsize w
  msize : ccrMsize v = ccrMsize w

/-- The state with `w` as the CCR of channel `c`. -/
def withCcr (s : State) (c : Nat) (w : Word) : State := setChannel s c { channelAt s c with ccr := w }

theorem withCcr_eq {w : Word} (hx : s.ch[c]? = some x) :
    withCcr s c w = { s with ch := s.ch.set c { x with ccr := w } } := by
  rw [withCcr, channelAt_of_getElem? hx, setChannel]

theorem slotVerdict_of_sameControl {w : Word} (h : SameControl w x.ccr) :
    slotVerdict a { x with ccr := w } = slotVerdict a x := by
  have hr : rejects { x with ccr := w } = rejects x := by simp only [rejects, h.en]
  have hmove (psize msize : ElemSize) : moveOf { x with ccr := w } psize msize = moveOf x psize msize := by
    simp only [moveOf, h.dir]
  simp only [slotVerdict, hr, hmove, h.psize, h.msize]

theorem afterElement_of_sameControl {w : Word} (h : SameControl w x.ccr) :
    afterElement { x with ccr := w } = { afterElement x with ccr := w } := by
  simp only [afterElement, steppedCount, h.circ, h.pinc, h.minc]

theorem channelAt_withCcr_ne {w : Word} (hd : d ≠ c) : channelAt (withCcr s c w) d = channelAt s d :=
  channelAt_setChannel_ne hd

theorem channelAt_withCcr_self {w : Word} (hx : s.ch[c]? = some x) :
    channelAt (withCcr s c w) c = { x with ccr := w } := by
  rw [withCcr, channelAt_of_getElem? hx]
  exact channelAt_of_getElem? (getElem?_setChannel_self hx)

/-- No verdict depends on the bits that no rule reads. -/
theorem verdict_withCcr {w : Word} (hx : s.ch[c]? = some x) (h : SameControl w x.ccr) (d : Nat) :
    verdict d (withCcr s c w) = verdict d s := by
  by_cases hd : d = c
  · subst hd
    simp only [verdict, channelAt_withCcr_self hx, channelAt_of_getElem? hx]
    exact congrArg (ite _ · _) (slotVerdict_of_sameControl h)
  · exact verdict_congr rfl rfl (channelAt_withCcr_ne hd)

/-- A transfer, field by field. -/
theorem transferred_eq (c : Nat) (x : Channel) (mv : Move) (s : State) :
    transferred c x mv s = { s with
      ch := s.ch.set c (afterElement x), mem := (moveElement mv s).mem, draws := (moveElement mv s).draws
      result := .none, accesses := (moveElement mv s).accesses } := by
  simp [transferred, setChannel]

/-- The effect of a verdict and a change of bits that no rule reads do not disturb each other. -/
theorem afterVerdict_withCcr {w : Word} {o : Option Move} (hx : s.ch[c]? = some x) (h : SameControl w x.ccr) (d : Nat) :
    afterVerdict d (withCcr s c w) o = withCcr (afterVerdict d s o) c w := by
  cases o with
  | none => rfl
  | some mv =>
    obtain ⟨hmem, hdraws, haccesses⟩ := moveElement_congr (s := s) (s' := withCcr s c w) rfl rfl rfl mv
    simp only [afterVerdict, transferred_eq, hmem, hdraws, haccesses]
    by_cases hd : d = c
    · subst hd
      have hl := (List.getElem?_eq_some_iff.1 hx).1
      rw [channelAt_withCcr_self hx, channelAt_of_getElem? hx, afterElement_of_sameControl h]
      simp [withCcr, setChannel, channelAt, hl]
    · rw [channelAt_withCcr_ne hd]
      simp [withCcr, setChannel, channelAt, hd, List.set_comm _ _ (Ne.symm hd)]

/-- A request on any input acts like one on some channel number: a negative index is as good as an inactive one. -/
theorem exists_channel_number (n : Nat) (channel level : Int) :
    ∃ d : Nat, ∀ s : State, s.channelCount = n → exec (.req channel level) s = exec (.req (d : Int) level) s := by
  rcases lt_or_ge channel 0 with hneg | hnonneg
  · refine ⟨n, fun s hs => ?_⟩
    exact (execReq_invalid (level := level) (.inl hneg)).trans
      (execReq_invalid (level := level) (.inr (by rw [hs]))).symm
  · lift channel to Nat using hnonneg with d
    exact ⟨d, fun _ _ => rfl⟩

/-- Settles O34: a request commutes with a change of the bits that no rule reads, refusals included. -/
theorem storedOnlyBitsOfCcrChangeNothing : Obligations.StoredOnlyBitsOfCcrChangeNothing := by
  intro s channel level c x w hx hen hdir hcirc hpinc hminc hpsize hmsize
  have hw : SameControl w x.ccr := ⟨hen, hdir, hcirc, hpinc, hminc, hpsize, hmsize⟩
  obtain ⟨d, hreq⟩ := exists_channel_number s.channelCount channel level
  rw [← withCcr_eq hx, hreq s rfl, hreq (withCcr s c w) rfl]
  refine ⟨fun r h => ?_, fun t h => ?_⟩
  · exact exec_req_of_verdict_error level ((verdict_withCcr hx hw d).trans (verdict_of_exec_req_refused h))
  · obtain ⟨y, hy, -⟩ := exec_req_slot_ccr h hx
    obtain ⟨o, hv, rfl⟩ := verdict_of_exec_req_next h
    refine ⟨y, hy, ?_⟩
    rw [← withCcr_eq hy, ← afterVerdict_withCcr hx hw d]
    exact exec_req_of_verdict_ok level ((verdict_withCcr hx hw d).trans hv)

end Sys2Proof.Machine
end

section
/-!
PROOFS. What an accepted request does (42_transfer_engine.md sections 1 to 4): the refusals, the sides and effective
addresses, the element moved, the interrupt registers, and the requests that are lost.
-/

namespace Sys2Proof.Machine

variable {s : State} {c : Nat} {x : Channel} {psize msize : ElemSize}

/-! ### The interrupt-enable flags -/

/-- Flipping TCIE, HTIE and TEIE touches no field that the engine reads. -/
theorem sameControl_flipEnables (v : Word) (flips : BitVec 3) : SameControl (v ^^^ (flips.setWidth 32 <<< 1)) v where
  en := by simp [ccrEn]
  dir := by simp [ccrDir]
  circ := by simp [ccrCirc]
  pinc := by simp [ccrPinc]
  minc := by simp [ccrMinc]
  psize := by ext i hi; simp [ccrPsize, BitVec.getLsbD_of_ge flips (7 + i) (by omega)]
  msize := by ext i hi; simp [ccrMsize, BitVec.getLsbD_of_ge flips (9 + i) (by omega)]

/-- Settles O33: the enables are bits that no rule reads, and no request writes a CCR. -/
theorem transfersNeverTouchInterruptRegisters : Obligations.TransfersNeverTouchInterruptRegisters := by
  intro s t channel level h
  obtain ⟨-, hisr, hifcr, -⟩ := exec_req_frame h
  refine ⟨hisr, hifcr, fun c x flips hx => ?_⟩
  obtain ⟨y, hy, hccr⟩ := exec_req_slot_ccr h hx
  obtain ⟨hen, hdir, hcirc, hpinc, hminc, hpsize, hmsize⟩ := sameControl_flipEnables x.ccr flips
  obtain ⟨-, hnext⟩ :=
    storedOnlyBitsOfCcrChangeNothing s channel level c x _ hx hen hdir hcirc hpinc hminc hpsize hmsize
  obtain ⟨y', hy', hexec⟩ := hnext t h
  obtain rfl : y = y' := Option.some_inj.1 (hy.symm.trans hy')
  exact ⟨y, hy, hccr ▸ hexec⟩

/-! ### The refusals -/

theorem sizeOfCode_eq_none_iff {code : BitVec 2} : sizeOfCode code = none ↔ code = 0b11#2 := by
  revert code
  decide

/-- Some window of the transfer touches the regions when that of a side does. -/
theorem windowTouches_moveOf (rs : List Region) (x : Channel) (psize msize : ElemSize) :
    (windowTouches rs (moveOf x psize msize).se || windowTouches rs (moveOf x psize msize).de)
      = (windowTouches rs (effectiveAddress x.cpar psize) || windowTouches rs (effectiveAddress x.cmar msize)) := by
  unfold moveOf
  split
  · exact Bool.or_comm ..
  · rfl

theorem slotVerdict_of_reserved {a : Accessor} (hr : rejects x = false)
    (hcode : ccrPsize x.ccr = 0b11#2 ∨ ccrMsize x.ccr = 0b11#2) : slotVerdict a x = .error .reservedSize := by
  simp only [slotVerdict, hr, Bool.false_eq_true, if_false]
  rcases hcode with hp | hm
  · rw [sizeOfCode_eq_none_iff.2 hp]
  · rw [sizeOfCode_eq_none_iff.2 hm]
    cases sizeOfCode (ccrPsize x.ccr) <;> rfl

theorem slotVerdict_of_legal {a : Accessor} (hr : rejects x = false) (hp : sizeOfCode (ccrPsize x.ccr) = some psize)
    (hm : sizeOfCode (ccrMsize x.ccr) = some msize) :
    slotVerdict a x =
      if windowTouches a.selfWindow (effectiveAddress x.cpar psize)
          || windowTouches a.selfWindow (effectiveAddress x.cmar msize)
      then .error .selfAccess else .ok (some (moveOf x psize msize)) := by
  simp only [slotVerdict, hr, Bool.false_eq_true, if_false, hp, hm, windowTouches_moveOf]

theorem verdict_of_active (hc : c < s.channelCount) (hx : s.ch[c]? = some x) :
    verdict c s = slotVerdict s.accessor x := by
  rw [verdict, if_pos hc, channelAt_of_getElem? hx]

/-- Settles O38: the verdict on an accepted slot, by its size codes and then its windows. -/
theorem reservedSizeAndOwnWindowAreRefused : Obligations.ReservedSizeAndOwnWindowAreRefused := by
  intro s c level x hc hx hen hcount
  have hr : rejects x = false := rejects_eq_false.2 ⟨hen, hcount⟩
  have hv := verdict_of_active hc hx
  refine ⟨fun hcode => ?_, fun psize msize hp hm htouch => ?_⟩
  · exact exec_req_of_verdict_error level (hv.trans (slotVerdict_of_reserved hr hcode))
  · refine exec_req_of_verdict_error level (hv.trans ((slotVerdict_of_legal hr hp hm).trans (if_pos ?_)))
    simpa using htouch

/-! ### Sides and effective addresses -/

theorem moveOf_of_peripheral_to_memory (h : ccrDir x.ccr = false) :
    moveOf x psize msize = { se := effectiveAddress x.cpar psize, ssize := psize
                             de := effectiveAddress x.cmar msize, dsize := msize } := by
  rw [moveOf, if_neg (by simp [h])]

theorem moveOf_of_memory_to_peripheral (h : ccrDir x.ccr = true) :
    moveOf x psize msize = { se := effectiveAddress x.cmar msize, ssize := msize
                             de := effectiveAddress x.cpar psize, dsize := psize } := by
  rw [moveOf, if_pos h]

/-- Settles O28: one literal for each value of DIR. -/
theorem directionChoosesTheSides : Obligations.DirectionChoosesTheSides := by
  intro x psize msize
  refine ⟨fun h => ?_, fun h => ?_⟩
  · rw [moveOf_of_peripheral_to_memory h]
    exact ⟨rfl, rfl, rfl, rfl⟩
  · rw [moveOf_of_memory_to_peripheral h]
    exact ⟨rfl, rfl, rfl, rfl⟩

theorem and_allOnes_shiftLeft (a : Word) (k : Nat) : a &&& BitVec.allOnes 32 <<< k = a >>> k <<< k := by
  refine BitVec.eq_of_getLsbD_eq fun i hi => ?_
  by_cases hk : i < k
  · simp [hk]
  · have hsum : k + (i - k) = i := by omega
    have hbelow : i - k < 32 := by omega
    simp only [BitVec.getLsbD_and, BitVec.getLsbD_shiftLeft, BitVec.getLsbD_allOnes, BitVec.getLsbD_ushiftRight,
      hk, hi, hsum, hbelow, decide_true, decide_false, Bool.not_false, Bool.and_true, Bool.true_and]

/-- An address mask clears the bits below its element's size. -/
theorem effectiveAddress_eq_shift (a : Word) :
    effectiveAddress a .byte = a ∧ effectiveAddress a .halfword = a >>> 1 <<< 1
    ∧ effectiveAddress a .word = a >>> 2 <<< 2 := by
  exact ⟨BitVec.and_allOnes, and_allOnes_shiftLeft a 1, and_allOnes_shiftLeft a 2⟩

/-- Settles O29: aligning down is dropping the remainder by a power of two. -/
theorem effectiveAddressIsAlignedDown : Obligations.EffectiveAddressIsAlignedDown := by
  intro a x
  obtain ⟨hbyte, hhalf, hword⟩ := effectiveAddress_eq_shift a
  refine ⟨hbyte, ?_, ?_, rfl, rfl, rfl, rfl, rfl⟩
  · rw [hhalf]
    simp only [BitVec.toNat_shiftLeft, BitVec.toNat_ushiftRight, Nat.shiftLeft_eq, Nat.shiftRight_eq_div_pow]
    omega
  · rw [hword]
    simp only [BitVec.toNat_shiftLeft, BitVec.toNat_ushiftRight, Nat.shiftLeft_eq, Nat.shiftRight_eq_div_pow]
    omega

theorem toNat_steppedAddress (increment : Bool) (a : Word) :
    (steppedAddress increment a).toNat = (a.toNat + (if increment then 1 else 0)) % 2 ^ 32 := by
  cases increment
  · exact (Nat.mod_eq_of_lt a.isLt).symm
  · exact BitVec.toNat_add a 1

/-- Settles O31: the slot after an element has both address registers stepped, each by its own flag. -/
theorem incrementIsOneWhateverTheSize : Obligations.IncrementIsOneWhateverTheSize := by
  intro s t c level x _ hx h ha
  obtain ⟨-, hy⟩ := exec_req_slot_of_accesses hx h ha
  exact ⟨afterElement x, hy, toNat_steppedAddress _ _, toNat_steppedAddress _ _⟩

/-! ### The element moved -/

theorem busValue_of_plain {a : Word} (h : windowTouches s.accessor.nonMemory a = false) :
    busValue s a = memRead s.mem a := by
  rw [busValue, if_neg (by simp [h])]

/-- A plain destination window takes the merged value, whatever the source is. -/
theorem moveElement_mem_of_plain_destination {mv : Move} (hd : windowTouches s.accessor.nonMemory mv.de = false) :
    (moveElement mv s).mem = memWrite s.accessor.nonMemory s.mem mv.de
      (merge (busValue (afterAccess s mv.se) mv.de) mv.dsize (busValue s mv.se) mv.ssize) := by
  simp [moveElement, hd]

/-- Settles O26: the request is `transferred`, its memory the destination window's alone. -/
theorem acceptedRequestMovesOneElement : Obligations.AcceptedRequestMovesOneElement := by
  intro s c level x psize msize sa da se de ssize dsize hinv hc hx hen hcount hp hm hperiph hmem hse hde hsself hdself
  obtain ⟨-, -, hwf⟩ := hinv
  have hmove : moveOf x psize msize = { se := se, ssize := ssize, de := de, dsize := dsize } := by
    cases hdir : ccrDir x.ccr with
    | false =>
      obtain ⟨rfl, rfl, rfl, rfl⟩ := hperiph hdir
      rw [moveOf_of_peripheral_to_memory hdir, hse, hde, effectiveAddress, effectiveAddress]
    | true =>
      obtain ⟨rfl, rfl, rfl, rfl⟩ := hmem hdir
      rw [moveOf_of_memory_to_peripheral hdir, hse, hde, effectiveAddress, effectiveAddress]
  have hexec := exec_req_of_accepts level hc hx (rejects_eq_false.2 ⟨hen, hcount⟩) hp hm
    (by rwa [hmove]) (by rwa [hmove])
  rw [hmove] at hexec
  refine ⟨_, busValue s se, busValue (afterAccess s se) de, _, hexec, rfl, ?_, fun a ha => ?_,
    busValue_of_plain, fun hd => ⟨?_, fun i hi => ?_⟩, fun hs hd => ?_⟩
  · rw [transferred_mem, transferred_draws, transferred_eq, moveElement_accesses]
    rfl
  · rw [transferred_mem]
    exact read_moveElement_outside (mv := ⟨se, ssize, de, dsize⟩) hwf fun i hi he => ha i hi (BitVec.eq_of_toNat_eq he)
  · rw [busValue_of_plain (by rwa [afterAccess_accessor]), afterAccess_mem]
  · rw [transferred_mem, moveElement_mem_of_plain_destination (mv := ⟨se, ssize, de, dsize⟩) hd]
    exact read_memWrite_lane (a := de) (i := i) hwf hi (inRegions_of_not_touches hd hi)
  · rw [transferred_draws, moveElement_draws_plain (mv := ⟨se, ssize, de, dsize⟩) hs hd]

/-- Merging an element into itself gives it back. -/
theorem merge_self (v : Word) (size : ElemSize) : merge v size v size = v := by
  refine word_ext_of_lanes fun i hi => ?_
  rw [laneOf_merge v v size size hi]
  split
  · exact BitVec.zero_or
  · exact BitVec.or_zero

/-- With equal sizes and equal effective addresses, the element is moved onto itself. -/
theorem moveOf_of_same_window {size : ElemSize} (h : effectiveAddress x.cpar size = effectiveAddress x.cmar size) :
    moveOf x size size = { se := effectiveAddress x.cpar size, ssize := size
                           de := effectiveAddress x.cpar size, dsize := size } := by
  rw [moveOf, h, ite_self]

/-- Moving an element onto itself writes back the window that was read. -/
theorem moveElement_mem_of_same_window {mv : Move} (hwf : Memory.wf s.mem = true) (hde : mv.de = mv.se)
    (hsize : mv.dsize = mv.ssize) (hplain : windowTouches s.accessor.nonMemory mv.se = false) :
    (moveElement mv s).mem = s.mem := by
  rw [moveElement_mem_plain hplain (hde ▸ hplain), hde, hsize, merge_self]
  exact memWrite_memRead hwf hplain

/-- Settles O37: the merged window is the window read, and writing it back changes nothing. -/
theorem copyOntoItselfChangesNoByte : Obligations.CopyOntoItselfChangesNoByte := by
  intro s t channel level x size hinv hx hp hm heq hplain h
  obtain ⟨-, -, hwf⟩ := hinv
  rcases execReq_next (level := level) h with rfl | ⟨c, psize, msize, rfl, -, -, hp', hm', -, -, rfl⟩
  · rfl
  · rw [Int.toNat_natCast] at hx
    rw [channelAt_of_getElem? hx] at hp' hm' ⊢
    obtain rfl : size = psize := Option.some_inj.1 (hp.symm.trans hp')
    obtain rfl : size = msize := Option.some_inj.1 (hm.symm.trans hm')
    rw [moveOf_of_same_window heq, transferred_mem]
    exact moveElement_mem_of_same_window (mv := ⟨_, _, _, _⟩) hwf rfl rfl hplain

/-! ### Requests to a disabled channel -/

/-- Settles O24: each lost request only clears what was shown, and the write shows anew. -/
theorem lostRequestsLeaveNoTrace : Obligations.LostRequestsLeaveNoTrace := by
  intro s c k level x v hc hx hen
  induction k generalizing s with
  | zero => rfl
  | succ k ih =>
    have hlost := exec_req_of_rejects level hc hx (rejects_eq_true.2 (.inl hen))
    have hwrite : exec (.wrCcr c v) (answer s .none) = exec (.wrCcr c v) s :=
      (exec_writeInstr_active (s := answer s .none) .ccr v hc hx).trans (exec_writeInstr_active .ccr v hc hx).symm
    calc runAll (List.replicate (k + 1) (.req (c : Int) level) ++ [.wrCcr c v]) s
        = runAll (List.replicate k (.req (c : Int) level) ++ [.wrCcr c v]) (answer s .none) :=
          runAll_cons_of_next hlost
      _ = runAll [.wrCcr c v] (answer s .none) := ih (answer s .none) hc hx
      _ = runAll [.wrCcr c v] s := by rw [runAll, hwrite, runAll]

end Sys2Proof.Machine
end

section
/-!
PROOFS. Requests to two channels in either order (20_memory.md section 4): their slots are apart, and on plain memory
with no window of one in a window of the other so are their bytes.
-/

namespace Sys2Proof.Machine

variable {s : State} {c d : Nat} {m : Memory} {a b v w : Word} {mv nv : Move} {o o' : Option Move}

/-! ### Windows that share no byte -/

/-- The windows at the two addresses have no byte in common. -/
def WindowsApart (a b : Word) : Prop := ∀ i < 4, ∀ j < 4, windowAddress a i ≠ windowAddress b j

theorem WindowsApart.symm (h : WindowsApart a b) : WindowsApart b a := fun i hi j hj he => h j hj i hi he.symm

/-- A byte of one window is outside the other. -/
theorem WindowsApart.toNat_ne (h : WindowsApart a b) {i : Nat} (hi : i < 4) :
    ∀ j < 4, (windowAddress a i).toNat ≠ (windowAddress b j).toNat := fun j hj he =>
  h i hi j hj (BitVec.eq_of_toNat_eq he)

/-- Writes of plain windows that share no byte commute. -/
theorem memWrite_comm (hm : Memory.wf m = true) (h : WindowsApart a b) :
    memWrite [] (memWrite [] m a v) b w = memWrite [] (memWrite [] m b w) a v := by
  have hma := memWrite_wf (rs := []) (a := a) (v := v) hm
  have hmb := memWrite_wf (rs := []) (a := b) (v := w) hm
  refine Memory.ext_of_read (memWrite_wf hma) (memWrite_wf hmb) fun k => ?_
  by_cases hka : ∃ i < 4, k = (windowAddress a i).toNat
  · obtain ⟨i, hi, rfl⟩ := hka
    rw [read_memWrite_outside hma (h.toNat_ne hi), read_memWrite_lane hm hi rfl, read_memWrite_lane hmb hi rfl]
  · have hoa : ∀ i < 4, k ≠ (windowAddress a i).toNat := fun i hi he => hka ⟨i, hi, he⟩
    rw [read_memWrite_outside hmb hoa]
    by_cases hkb : ∃ j < 4, k = (windowAddress b j).toNat
    · obtain ⟨j, hj, rfl⟩ := hkb
      rw [read_memWrite_lane hma hj rfl, read_memWrite_lane hm hj rfl]
    · have hob : ∀ j < 4, k ≠ (windowAddress b j).toNat := fun j hj he => hkb ⟨j, hj, he⟩
      rw [read_memWrite_outside hma hob, read_memWrite_outside hm hoa, read_memWrite_outside hm hob]

/-! ### Elements moved on plain memory -/

/-- What moving an element does to memory that is plain everywhere. -/
def memAfterMove (m : Memory) (mv : Move) : Memory :=
  memWrite [] m mv.de (merge (memRead m mv.de) mv.dsize (memRead m mv.se) mv.ssize)

theorem moveElement_mem_everywhere_plain (h : s.accessor.nonMemory = []) :
    (moveElement mv s).mem = memAfterMove s.mem mv := by
  rw [moveElement_mem_plain (by rw [h]; rfl) (by rw [h]; rfl), h, memAfterMove]

theorem exists_source_access (mv : Move) (s : State) : ∃ v, Access.read mv.se v ∈ (moveElement mv s).accesses := by
  rw [moveElement_accesses]
  exact ⟨_, List.mem_cons_self⟩

theorem exists_destination_access (mv : Move) (s : State) :
    ∃ v, Access.write mv.de v ∈ (moveElement mv s).accesses := by
  rw [moveElement_accesses]
  exact ⟨_, List.mem_cons_of_mem _ (List.mem_cons_of_mem _ List.mem_cons_self)⟩

/-- No window of the one move has a byte in common with one of the other. -/
structure Move.Apart (mv nv : Move) : Prop where
  se_de : WindowsApart mv.se nv.de
  de_se : WindowsApart mv.de nv.se
  de_de : WindowsApart mv.de nv.de

theorem Move.Apart.symm (h : mv.Apart nv) : nv.Apart mv := ⟨h.de_se.symm, h.se_de.symm, h.de_de.symm⟩

/-- A move after one that is apart from it reads what it would have read without it. -/
theorem memAfterMove_of_apart (hm : Memory.wf m = true) (h : mv.Apart nv) :
    memAfterMove (memAfterMove m mv) nv
      = memWrite [] (memAfterMove m mv) nv.de (merge (memRead m nv.de) nv.dsize (memRead m nv.se) nv.ssize) := by
  rw [memAfterMove.eq_1 (memAfterMove m mv), memAfterMove.eq_1 m, memRead_memWrite_disjoint hm h.de_de.symm,
    memRead_memWrite_disjoint hm h.de_se.symm]

theorem memAfterMove_comm (hm : Memory.wf m = true) (h : mv.Apart nv) :
    memAfterMove (memAfterMove m mv) nv = memAfterMove (memAfterMove m nv) mv := by
  rw [memAfterMove_of_apart hm h, memAfterMove_of_apart hm h.symm]
  exact memWrite_comm hm h.de_de

/-! ### Two verdicts in either order -/

theorem channelAt_afterVerdict_ne (hd : d ≠ c) : channelAt (afterVerdict c s o) d = channelAt s d :=
  channelAt_congr (getElem?_afterVerdict_ne hd)

/-- The slots after two requests to different channels do not depend on their order. -/
theorem afterVerdict_ch_comm (hcd : c ≠ d) :
    (afterVerdict d (afterVerdict c s o) o').ch = (afterVerdict c (afterVerdict d s o') o).ch := by
  simp only [afterVerdict_ch, channelAt_afterVerdict_ne hcd, channelAt_afterVerdict_ne hcd.symm]
  split
  · split
    · exact List.set_comm _ _ hcd
    · rfl
  · rfl

theorem afterVerdict_mem (h : s.accessor.nonMemory = []) :
    (afterVerdict c s o).mem = o.elim s.mem (memAfterMove s.mem) := by
  cases o with
  | none => rfl
  | some mv => rw [afterVerdict, transferred_mem, moveElement_mem_everywhere_plain h, Option.elim_some]

/-- Nor does plain memory, when no access of the one lies in a window of the other. -/
theorem afterVerdict_mem_comm (hm : Memory.wf s.mem = true) (h : s.accessor.nonMemory = [])
    (hapart : ∀ e ∈ (afterVerdict c s o).accesses, ∀ e' ∈ (afterVerdict d s o').accesses,
      WindowsApart e.address e'.address) :
    (afterVerdict d (afterVerdict c s o) o').mem = (afterVerdict c (afterVerdict d s o') o).mem := by
  have hplain (c : Nat) (o : Option Move) : (afterVerdict c s o).accessor.nonMemory = [] := by
    rw [afterVerdict_accessor, h]
  simp only [afterVerdict_mem h, afterVerdict_mem (hplain _ _)]
  cases o with
  | none => rfl
  | some mv =>
    cases o' with
    | none => rfl
    | some nv =>
      simp only [afterVerdict, transferred_accesses] at hapart
      obtain ⟨_, hmr⟩ := exists_source_access mv s
      obtain ⟨_, hmw⟩ := exists_destination_access mv s
      obtain ⟨_, hnr⟩ := exists_source_access nv s
      obtain ⟨_, hnw⟩ := exists_destination_access nv s
      exact memAfterMove_comm hm ⟨hapart _ hmr _ hnw, hapart _ hmw _ hnr, hapart _ hmw _ hnw⟩

/-- Settles O40: neither request changes the verdict on the other, and the effects of the verdicts commute. -/
theorem requestsToDifferentChannelsCommute : Obligations.RequestsToDifferentChannelsCommute := by
  intro s t t' c d level level' hcd h h'
  obtain ⟨o, hv, rfl⟩ := verdict_of_exec_req_next h
  obtain ⟨o', hv', rfl⟩ := verdict_of_exec_req_next h'
  refine ⟨_, _, exec_req_of_verdict_ok level' ((verdict_afterVerdict_ne hcd.symm).trans hv'),
    exec_req_of_verdict_ok level ((verdict_afterVerdict_ne hcd).trans hv), by simp, by simp,
    afterVerdict_ch_comm hcd, by simp, by simp, fun hinv hplain hapart => ?_⟩
  obtain ⟨-, -, hmem⟩ := hinv
  exact afterVerdict_mem_comm hmem hplain hapart

end Sys2Proof.Machine
end

section
/-!
PROOFS. How a step stops (60_exceptions.md section 1): a fault at construction only, and a refusal for one of the
reasons of the closed list.
-/

namespace Sys2Proof.Machine

variable {s : State} {n : Nat} {i : Instr} {f : Fault} {r : Refusal} {channel level : Int}

/-! ### The step that stops -/

/-- A step without a next state met an operation, which the decoder rejected or which was run or refused whole. -/
theorem step_of_not_next (h : ∀ t, step s ≠ .next t) :
    ∃ o rest, s.input = .operation o :: rest ∧
      ((∃ e, decode s.channelCount o = .error e ∧ step s = .refused (refusalOf e))
        ∨ ∃ i, decode s.channelCount o = .ok i
          ∧ step s = if admits s i then exec i { s with input := rest } else .refused .notConstructed) := by
  cases hin : s.input with
  | nil => exact absurd (step_of_idle hin) (h s)
  | cons e rest =>
    cases e with
    | targetStore a b => exact absurd (step_of_targetStore hin) (h _)
    | operation o =>
      refine ⟨o, rest, rfl, ?_⟩
      cases hd : decode s.channelCount o with
      | error e => exact .inl ⟨e, rfl, step_of_decode_error hin hd⟩
      | ok i => exact .inr ⟨i, rfl, step_of_decode_ok hin hd⟩

/-- The decoder rejects an access of another size and nothing else (30_encoding.md R81). -/
theorem access_of_decode_error {o : Operation} {e : DecodeError} (h : decode n o = .error e) :
    ∃ offset v size, size ≠ 4 ∧ (o = .mmioRead offset size ∨ o = .mmioWrite offset size v) := by
  cases o with
  | mmioRead offset size =>
    rw [decode] at h
    split_ifs at h with hsize
    exact ⟨offset, 0, size, hsize, .inl rfl⟩
  | mmioWrite offset size v =>
    rw [decode] at h
    split_ifs at h with hsize
    exact ⟨offset, v, size, hsize, .inr rfl⟩
  | request | reset | construct | snapshot | restore => cases h

/-! ### The one fault -/

/-- Every outcome of a construction, by its tests in their order (43_lifecycle.md R170, R171). -/
theorem exec_cfg_cases (n : Nat) (accessor : Option Accessor) (s : State) :
    (s.constructed = true ∧ exec (.cfg n accessor) s = .refused .alreadyConstructed)
    ∨ (s.constructed = false ∧ ((accessor = none ∧ exec (.cfg n accessor) s = .fault .noAccessor)
      ∨ (accessor ≠ none ∧ (n < 1 ∨ s.ch.length < n) ∧ exec (.cfg n accessor) s = .fault .badChannelCount)
      ∨ ∃ t, exec (.cfg n accessor) s = .next t)) := by
  cases hc : s.constructed with
  | true => exact .inl ⟨rfl, exec_cfg_of_constructed hc⟩
  | false =>
    refine .inr ⟨rfl, ?_⟩
    cases accessor with
    | none => exact .inl ⟨rfl, exec_cfg_of_none hc⟩
    | some a =>
      by_cases hn : n < 1 ∨ s.ch.length < n
      · exact .inr (.inl ⟨by simp, hn, exec_cfg_of_bad_count hc hn⟩)
      · exact .inr (.inr ⟨_, exec_cfg_of_fitting hc (by omega) (by omega)⟩)

/-- The two fatal errors of a construction, with their causes (43_lifecycle.md R170). -/
theorem execCfg_fault {accessor : Option Accessor} (h : execCfg n accessor s = .fault f) :
    s.constructed = false ∧ ((f = .noAccessor ∧ accessor = none)
      ∨ (f = .badChannelCount ∧ accessor ≠ none ∧ (n < 1 ∨ s.ch.length < n))) := by
  replace h : exec (.cfg n accessor) s = .fault f := h
  rcases exec_cfg_cases n accessor s with ⟨-, he⟩ | ⟨hc, ⟨hnone, he⟩ | ⟨hsome, hn, he⟩ | ⟨t, he⟩⟩ <;>
    rw [he] at h <;> cases h
  · exact ⟨hc, .inl ⟨rfl, hnone⟩⟩
  · exact ⟨hc, .inr ⟨rfl, hsome, hn⟩⟩

/-- Settles O52: of all operations only a construction faults, and it is decoded from a construct event. -/
theorem onlyConstructionIsFatal : Obligations.OnlyConstructionIsFatal := by
  intro s f h
  obtain ⟨o, rest, hin, ⟨e, -, hstep⟩ | ⟨i, hd, hstep⟩⟩ := step_of_not_next (s := s) (by simp [h])
  · rw [hstep] at h
    cases h
  · rw [hstep] at h
    split_ifs at h
    obtain ⟨n, accessor, rfl, hcfg⟩ := exec_fault h
    obtain ⟨hc, hcause⟩ := execCfg_fault hcfg
    obtain ⟨-, hconstruct, -⟩ := decode_lifecycle hd
    exact ⟨hc, n, accessor, rest, by rw [hin, hconstruct n accessor rfl], hcause⟩

/-! ### The refusals -/

/-- The request was accepted by its slot and met a reserved size code, or a window of its own block. -/
def RequestRefused (s : State) (channel : Int) (r : Refusal) : Prop :=
  ∃ (c : Nat) (x : Channel), channel = Int.ofNat c ∧ c < s.channelCount ∧ s.ch[c]? = some x
    ∧ ccrEn x.ccr = true ∧ x.cndtr ≠ 0
    ∧ ((r = .reservedSize ∧ (ccrPsize x.ccr = 0b11#2 ∨ ccrMsize x.ccr = 0b11#2))
      ∨ (r = .selfAccess ∧ ∃ psize msize,
          sizeOfCode (ccrPsize x.ccr) = some psize ∧ sizeOfCode (ccrMsize x.ccr) = some msize
          ∧ (windowTouches s.accessor.selfWindow (effectiveAddress x.cpar psize) = true
            ∨ windowTouches s.accessor.selfWindow (effectiveAddress x.cmar msize) = true)))

theorem exec_req_refused (h : exec (.req channel level) s = .refused r) : RequestRefused s channel r := by
  simp only [exec, execReq] at h
  split_ifs at h with hv
  · cases h
  · obtain ⟨hr, hcause⟩ := transfer_refused h
    obtain ⟨hen, hcount⟩ := rejects_eq_false.1 hr
    refine ⟨channel.toNat, _, (Int.toNat_of_nonneg (by omega)).symm, by omega, slot_of_accepted hr, hen, hcount, ?_⟩
    rcases hcause with ⟨rfl, hsize⟩ | ⟨rfl, psize, msize, hp, hm, htouch⟩
    · exact .inl ⟨rfl, hsize.imp sizeOfCode_eq_none_iff.1 sizeOfCode_eq_none_iff.1⟩
    · rw [← Bool.or_eq_true, windowTouches_moveOf, Bool.or_eq_true] at htouch
      exact .inr ⟨rfl, psize, msize, hp, hm, htouch⟩

/-- The two refusals of a restore, with their causes (43_lifecycle.md R173). -/
theorem exec_load_refused {record : List Word} (h : exec (.load record) s = .refused r) :
    (r = .restoreShape ∧ record.length ≠ 3 + 5 * s.ch.length)
    ∨ (r = .restoreMismatch ∧ record.length = 3 + 5 * s.ch.length
      ∧ record[2]? ≠ some (BitVec.ofNat 32 s.channelCount)) := by
  by_cases hlength : record.length = 3 + 5 * s.ch.length
  · by_cases hcount : recordField record 2 = countWord s
    · rw [exec_load_of_fitting hlength hcount] at h
      cases h
    · rw [exec_load_of_bad_count hlength hcount] at h
      cases h
      exact .inr ⟨rfl, hlength, fun hw => hcount ((recordField_two_eq_countWord hlength).2 hw)⟩
  · rw [exec_load_of_bad_shape hlength] at h
    cases h
    exact .inl ⟨rfl, hlength⟩

/-- The refusal of a construction (43_lifecycle.md R171). -/
theorem exec_cfg_refused {accessor : Option Accessor} (h : exec (.cfg n accessor) s = .refused r) :
    s.constructed = true ∧ r = .alreadyConstructed := by
  rcases exec_cfg_cases n accessor s with ⟨hc, he⟩ | ⟨-, ⟨-, he⟩ | ⟨-, -, he⟩ | ⟨t, he⟩⟩ <;>
    rw [he] at h <;> cases h
  exact ⟨hc, rfl⟩

/-- The operations that can be refused once they run: a request, a restore and a construction. -/
theorem exec_refused (h : exec i s = .refused r) :
    (∃ channel level, i = .req channel level ∧ RequestRefused s channel r)
    ∨ (∃ record, i = .load record ∧ exec (.load record) s = .refused r)
    ∨ (∃ m accessor, i = .cfg m accessor ∧ s.constructed = true ∧ r = .alreadyConstructed) := by
  cases i with
  | req channel level => exact .inl ⟨channel, level, rfl, exec_req_refused h⟩
  | load record => exact .inr (.inl ⟨record, rfl, h⟩)
  | cfg m accessor => exact .inr (.inr ⟨m, accessor, rfl, exec_cfg_refused h⟩)
  | _ => cases h

/-- An operation that is no construction is run on a block that exists only. -/
theorem constructed_of_admits (h : admits s i = true) (hi : isConstruction i = false) : s.constructed = true := by
  simpa [admits, hi] using h

/-- An operation that the machine has no step on meets no block and is no construct event. -/
theorem unconstructed_of_not_admits {o : Operation} (hd : decode n o = .ok i) (h : ¬admits s i = true) :
    s.constructed = false ∧ ∀ m accessor, o ≠ .construct m accessor := by
  obtain ⟨hc, hi⟩ : s.constructed = false ∧ isConstruction i = false := by simpa [admits] using h
  refine ⟨hc, ?_⟩
  rintro m accessor rfl
  cases hd
  cases hi

/-- Settles O53: the decoder, the test before `exec`, and the three operations that refuse. -/
theorem refusalsAreTheClosedList : Obligations.RefusalsAreTheClosedList := by
  intro s r h
  obtain ⟨o, rest, hin, ⟨e, hd, hstep⟩ | ⟨i, hd, hstep⟩⟩ := step_of_not_next (s := s) (by simp [h])
  · rw [hstep] at h
    cases h
    obtain ⟨offset, v, size, hsize, ho⟩ := access_of_decode_error hd
    cases e
    exact .inl ⟨rfl, offset, v, size, rest, hsize, by simpa [hin] using ho⟩
  · rw [hstep] at h
    split_ifs at h with hadmits
    · obtain ⟨hrequest, hconstruct, hrestore⟩ := decode_lifecycle hd
      rcases exec_refused h with ⟨channel, level, rfl, c, x, rfl, hc, hx, hen, hcount, hcause⟩
        | ⟨record, rfl, hload⟩ | ⟨m, accessor, rfl, hc, rfl⟩
      · have hinput : s.input = .operation (.request (Int.ofNat c) level) :: rest := by rw [hin, hrequest _ _ rfl]
        have hs := constructed_of_admits hadmits rfl
        rcases hcause with ⟨rfl, hcode⟩ | ⟨rfl, psize, msize, hp, hm, htouch⟩
        · exact .inr (.inl ⟨rfl, hs, c, level, rest, x, hinput, hc, hx, hen, hcount, hcode⟩)
        · exact .inr (.inr (.inl
            ⟨rfl, hs, c, level, rest, x, psize, msize, hinput, hc, hx, hen, hcount, hp, hm, htouch⟩))
      · have hinput : s.input = .operation (.restore record) :: rest := by rw [hin, hrestore _ rfl]
        have hc := constructed_of_admits hadmits rfl
        rcases exec_load_refused hload with ⟨rfl, hlength⟩ | ⟨rfl, hlength, hword⟩
        · exact .inr (.inr (.inr (.inl ⟨rfl, hc, record, rest, hinput, hlength⟩)))
        · exact .inr (.inr (.inr (.inr (.inl ⟨rfl, hc, record, rest, hinput, hlength, hword⟩))))
      · exact .inr (.inr (.inr (.inr (.inr (.inl ⟨rfl, hc, m, accessor, rest, by rw [hin, hconstruct _ _ rfl]⟩)))))
    · cases h
      obtain ⟨hc, ho⟩ := unconstructed_of_not_admits hd hadmits
      exact .inr (.inr (.inr (.inr (.inr (.inr ⟨rfl, hc, o, rest, hin, ho⟩)))))

end Sys2Proof.Machine
end

section
/-!
PROOFS. Any number of requests on one channel (42_transfer_engine.md section 2, steps 8 and 9, and section 3): each is
one map on the channel's slot, so a run of them is its iterate.
-/

namespace Sys2Proof.Machine

variable {s : State} {c k moved : Nat} {level : Int} {x y : Channel}

/-! ### A request as a map on the slot -/

/-- The slot after a request that is not refused. -/
def afterRequest (x : Channel) : Channel := if rejects x then x else afterElement x

/-- No request on channel `c`, whose slot is `x`, can be refused: the size codes are legal and no address is the
block's own. -/
structure Unrefusable (c : Nat) (x : Channel) (s : State) : Prop where
  active : c < s.channelCount
  slot : s.ch[c]? = some x
  selfWindow : s.accessor.selfWindow = []
  psize : (sizeOfCode (ccrPsize x.ccr)).isSome = true
  msize : (sizeOfCode (ccrMsize x.ccr)).isSome = true

theorem afterRequest_ccr (x : Channel) : (afterRequest x).ccr = x.ccr := by
  unfold afterRequest
  split <;> rfl

/-- A request on such a channel completes, maps the slot and leaves the next one as safe from refusal. -/
theorem exec_req_of_unrefusable (level : Int) (h : Unrefusable c x s) :
    ∃ t, exec (.req (c : Int) level) s = .next t ∧ Unrefusable c (afterRequest x) t := by
  obtain ⟨hc, hx, hself, hpsize, hmsize⟩ := id h
  obtain ⟨psize, hp⟩ := Option.isSome_iff_exists.1 hpsize
  obtain ⟨msize, hm⟩ := Option.isSome_iff_exists.1 hmsize
  cases hr : rejects x with
  | true =>
    rw [afterRequest, if_pos hr]
    exact ⟨_, exec_req_of_rejects level hc hx hr, { h with }⟩
  | false =>
    have hapart (a : Word) : windowTouches s.accessor.selfWindow a = false := by rw [hself]; rfl
    have hexec := exec_req_of_accepts level hc hx hr hp hm (hapart _) (hapart _)
    obtain ⟨-, -, -, hcount, haccessor, -⟩ := exec_req_frame hexec
    refine ⟨_, hexec, hcount ▸ hc, ?_, haccessor ▸ hself, (afterRequest_ccr x).symm ▸ hpsize,
      (afterRequest_ccr x).symm ▸ hmsize⟩
    rw [afterRequest, if_neg (by simp [hr])]
    exact getElem?_setChannel_self (by rwa [moveElement_ch])

/-- A run of requests on such a channel completes and iterates the map. -/
theorem runAll_of_unrefusable (level : Int) (k : Nat) (h : Unrefusable c x s) :
    ∃ t, runAll (List.replicate k (.req (c : Int) level)) s = .next t ∧ t.ch[c]? = some (afterRequest^[k] x) := by
  induction k generalizing s x with
  | zero => exact ⟨s, rfl, h.slot⟩
  | succ k ih =>
    obtain ⟨u, hexec, hu⟩ := exec_req_of_unrefusable level h
    obtain ⟨t, hrun, ht⟩ := ih hu
    exact ⟨t, (runAll_cons_of_next hexec).trans hrun, ht⟩

/-! ### What the elements moved leave in the slot -/

/-- An address register after `moved` elements: one step each where the flag is set, never rewound. -/
def advanced (increment : Bool) (a : Word) (moved : Nat) : Word :=
  if increment then a + BitVec.ofNat 32 moved else a

theorem steppedAddress_advanced (increment : Bool) (a : Word) (moved : Nat) :
    steppedAddress increment (advanced increment a moved) = advanced increment a (moved + 1) := by
  cases increment
  · rfl
  · simp only [steppedAddress, advanced, if_true, BitVec.ofNat_add, BitVec.add_assoc]
    rfl

/-- Slot `y` is slot `x` after `moved` elements, the count aside. -/
structure Advanced (x : Channel) (moved : Nat) (y : Channel) : Prop where
  ccr : y.ccr = x.ccr
  reloadCndtr : y.reloadCndtr = x.reloadCndtr
  cmar : y.cmar = advanced (ccrMinc x.ccr) x.cmar moved
  cpar : y.cpar = advanced (ccrPinc x.ccr) x.cpar moved

theorem Advanced.zero (x : Channel) : Advanced x 0 x where
  ccr := rfl
  reloadCndtr := rfl
  cmar := by simp [advanced]
  cpar := by simp [advanced]

theorem Advanced.afterElement (h : Advanced x moved y) : Advanced x (moved + 1) (afterElement y) where
  ccr := h.ccr
  reloadCndtr := h.reloadCndtr
  cmar := by rw [← steppedAddress_advanced, ← h.cmar, ← h.ccr]; rfl
  cpar := by rw [← steppedAddress_advanced, ← h.cpar, ← h.ccr]; rfl

/-- A request on an enabled slot with a count moves its element. -/
theorem afterRequest_of_accepts (hen : ccrEn x.ccr = true) (hcount : x.cndtr ≠ 0) :
    afterRequest x = afterElement x := by
  rw [afterRequest, rejects_eq_false.2 ⟨hen, hcount⟩, if_neg Bool.false_ne_true]

theorem afterRequest_of_done (hcount : x.cndtr = 0) : afterRequest x = x := by
  rw [afterRequest, if_pos (rejects_eq_true.2 (.inr hcount))]

/-! ### Circular mode -/

/-- The remaining count of the circular scenario after one element more. -/
theorem circular_count_succ {v : Nat} (hv : 0 < v) (k : Nat) :
    v - (k + 1) % v = if v - k % v = 1 then v else v - k % v - 1 := by
  have hlt := Nat.mod_lt k hv
  rw [← Nat.mod_add_mod]
  split
  · next hone => rw [show k % v + 1 = v by omega, Nat.mod_self, Nat.sub_zero]
  · rw [Nat.mod_eq_of_lt (by omega)]
    omega

/-- In circular mode the count steps down to 1 and starts again. -/
theorem toNat_steppedCount_of_circular (hcirc : ccrCirc x.ccr = true) (hcount : x.cndtr ≠ 0) :
    (steppedCount x).toNat = if x.cndtr.toNat = 1 then x.reloadCndtr.toNat else x.cndtr.toNat - 1 := by
  split
  · next hone => rw [steppedCount_of_eq_one hone, if_pos hcirc]
  · have hdown := steppedCount_of_two_le (x := x) (by bv_omega)
    omega

/-- The slot after `k` requests in circular mode: every one of them moved an element. -/
theorem iterate_afterRequest_of_circular (hen : ccrEn x.ccr = true) (hcirc : ccrCirc x.ccr = true)
    (hcount : x.cndtr ≠ 0) (hreload : x.reloadCndtr = x.cndtr) (k : Nat) :
    Advanced x k (afterRequest^[k] x)
    ∧ (afterRequest^[k] x).cndtr.toNat = x.cndtr.toNat - k % x.cndtr.toNat := by
  have hpos : 0 < x.cndtr.toNat := by bv_omega
  induction k with
  | zero => exact ⟨.zero x, by simp⟩
  | succ k ih =>
    obtain ⟨hadv, hleft⟩ := ih
    have hlt := Nat.mod_lt k hpos
    have hne : (afterRequest^[k] x).cndtr ≠ 0 := by
      intro hzero
      rw [hzero] at hleft
      simp at hleft
      omega
    rw [Function.iterate_succ_apply', afterRequest_of_accepts (hadv.ccr ▸ hen) hne]
    refine ⟨hadv.afterElement, ?_⟩
    rw [circular_count_succ hpos, ← hleft]
    refine (toNat_steppedCount_of_circular (hadv.ccr ▸ hcirc) hne).trans ?_
    rw [hadv.reloadCndtr, hreload]

/-- Settles O35: the run is the iterate of the slot map, of which every step moves an element. -/
theorem circularModeReloadsTheCountAndNotTheAddresses :
    Obligations.CircularModeReloadsTheCountAndNotTheAddresses := by
  intro s c k level x hc hx hself hen hcirc hcount hreload hpsize hmsize
  obtain ⟨t, hrun, ht⟩ := runAll_of_unrefusable level k ⟨hc, hx, hself, hpsize, hmsize⟩
  obtain ⟨hadv, hleft⟩ := iterate_afterRequest_of_circular hen hcirc hcount hreload k
  exact ⟨t, _, hrun, ht, hleft, hadv.reloadCndtr, hadv.cmar, hadv.cpar⟩

/-! ### Without circular mode -/

theorem steppedCount_of_not_circular (hcirc : ccrCirc x.ccr = false) : steppedCount x = x.cndtr - 1 := by
  rw [steppedCount, if_neg (by simp [hcirc])]

/-- The slot after `k` requests without circular mode: those moved an element that met a count. -/
theorem iterate_afterRequest_of_not_circular (hen : ccrEn x.ccr = true) (hcirc : ccrCirc x.ccr = false) (k : Nat) :
    Advanced x (min k x.cndtr.toNat) (afterRequest^[k] x)
    ∧ (afterRequest^[k] x).cndtr.toNat = x.cndtr.toNat - k := by
  induction k with
  | zero => exact ⟨by simpa using Advanced.zero x, rfl⟩
  | succ k ih =>
    obtain ⟨hadv, hleft⟩ := ih
    rw [Function.iterate_succ_apply']
    by_cases hzero : (afterRequest^[k] x).cndtr = 0
    · have hdone : x.cndtr.toNat ≤ k := by
        rw [hzero] at hleft
        simp at hleft
        omega
      rw [afterRequest_of_done hzero]
      refine ⟨?_, by omega⟩
      rwa [min_eq_right (by omega), ← min_eq_right hdone]
    · have hmore : k < x.cndtr.toNat := by bv_omega
      rw [afterRequest_of_accepts (hadv.ccr ▸ hen) hzero]
      refine ⟨?_, ?_⟩
      · rw [min_eq_left (by omega)]
        rw [min_eq_left (by omega)] at hadv
        exact hadv.afterElement
      · have hdown : (afterElement (afterRequest^[k] x)).cndtr = (afterRequest^[k] x).cndtr - 1 :=
          steppedCount_of_not_circular (hadv.ccr ▸ hcirc)
        rw [hdown]
        bv_omega

/-- Settles O36: the run is the iterate of the slot map, which stands still once the count is 0. -/
theorem nonCircularChannelStopsAtZero : Obligations.NonCircularChannelStopsAtZero := by
  intro s c k level x hc hx hself hen hcirc hpsize hmsize
  obtain ⟨t, hrun, ht⟩ := runAll_of_unrefusable level k ⟨hc, hx, hself, hpsize, hmsize⟩
  obtain ⟨hadv, hleft⟩ := iterate_afterRequest_of_not_circular hen hcirc k
  exact ⟨t, _, hrun, ht, hleft, hadv.cmar, hadv.cpar⟩

end Sys2Proof.Machine
end
